-- ==== Sys2Proof/Word.lean ====
section
/-! DEFINITION. The word types of the Serial-frame receiver (00_scope.md R7: unsigned bytes, bit 0 least significant). -/

namespace Sys2Proof

/-- A byte: an unsigned 8-bit value (00_scope.md R7). -/
abbrev Byte := BitVec 8

/-- The input word of one step (30_encoding.md R75). -/
abbrev InputWord := BitVec 11

/-- The decode key `K = {st, I}` (30_encoding.md R77). -/
abbrev Key := BitVec 14

/-- The payload register file: 32 entries of 8 bits (10_state.md R26). -/
abbrev Payload := Vector Byte 32

/-- The payload register file with `0x00` in every entry (10_state.md R33). -/
abbrev Payload.zero : Payload := Vector.replicate 32 0x00#8

end Sys2Proof
end

