-- ==== Sys2Proof/Config.lean ====
section
/-! DEFINITION. The implementation parameters of this hardware (00_scope.md R5) and the free values: what the spec
leaves open while the machine goes on (93_implementation_defined.md U3; 42_checksum.md R150 outside its domain). -/

namespace Sys2Proof

/-- `MARKER`: the sync marker's bytes in arrival order (00_scope.md R5). -/
abbrev Config.marker : List Byte := [0x01#8, 0x02#8, 0x03#8, 0x04#8]

/-- `MARKER_WORD`: the marker packed with its first byte in bits 31:24 (00_scope.md R5, 20_memory.md R53). -/
abbrev Config.markerWord : BitVec 32 := 0x01020304#32

/-- `MARKER_LEN` (00_scope.md R5). -/
abbrev Config.markerLen : Nat := 4

/-- `MAX_LEN`: the largest legal LENGTH (00_scope.md R5). -/
abbrev Config.maxLen : Nat := 32

/-- `PAYLOAD_CAP`: the payload register file's capacity (00_scope.md R5). -/
abbrev Config.payloadCap : Nat := 32

/-- `FRAME_MIN`: bytes of the shortest frame, marker included (00_scope.md R5). -/
abbrev Config.frameMin : Nat := 7

/-- `FRAME_MAX`: bytes of the longest frame, marker included (00_scope.md R5). -/
abbrev Config.frameMax : Nat := 39

/-- `BUDGET_W`: width of `sync_budget` and `scan_cnt` (00_scope.md R5). -/
abbrev Config.budgetW : Nat := 16

/-- `CNT_W`: width of each status counter (00_scope.md R5). -/
abbrev Config.cntW : Nat := 16

/-- `STATE_W`: width of the state tag (00_scope.md R5). -/
abbrev Config.stateW : Nat := 3

/-- FREE VALUE (DESIGN CHOICE, log 5): what `seg_len_o` carries in a step without a Segment, by step number
(30_encoding.md R79, 93_implementation_defined.md U3 'any value'). -/
opaque Config.freeSegLen : Nat → Byte

/-- FREE VALUE (DESIGN CHOICE, log 5): what `seg_type_o` carries in a step without a Segment (30_encoding.md R79). -/
opaque Config.freeSegType : Nat → Byte

/-- FREE VALUE (DESIGN CHOICE, log 5): what `seg_chk_o` carries in a step without a Segment (30_encoding.md R79). -/
opaque Config.freeSegChk : Nat → Byte

/-- FREE VALUE (DESIGN CHOICE, log 5): what `seg_payload_o` carries in a step without a Segment (30_encoding.md R79). -/
opaque Config.freeSegPayload : Nat → BitVec 256

/-- FREE VALUE (DESIGN CHOICE, log 9): the checksum of a LENGTH above 32, which is outside the domain of 42_checksum.md R150
('requires L ≤ 32'); 10_state.md R39 item 2 rules such a LENGTH out. -/
opaque Config.freeChecksum : Byte → Byte → Payload → Byte

end Sys2Proof
end

