-- ==== Sys2Proof/Machine/Flags.lean ====
section
/-! DEFINITION. The conditions the step rules test and the values they compute, over plain words: the detector's three
values (40_sync.md R100), the checksum (42_checksum.md R150) and the counter increments (10_state.md R29). The SFR has no
status flags (10_state.md R36); the two derived conditions named there stand at the end. -/

namespace Sys2Proof

/-- `w`, the window after this byte: `((win << 8) | zext_32(data)) mod 2^32` (40_sync.md R100). -/
def windowAfter (win : BitVec 32) (data : Byte) : BitVec 32 := (win <<< 8) ||| data.setWidth 32

/-- `c`, the scan count after this byte: `min(scan_cnt + 1, 0xFFFF)` (40_sync.md R100). -/
def scanAfter (scanCnt : BitVec 16) : BitVec 16 := BitVec.ofNat 16 (min (scanCnt.toNat + 1) 0xFFFF)

/-- `to`, the budget is exhausted: `sync_budget ≠ 0 and c ≥ sync_budget` (40_sync.md R100). -/
def budgetSpent (syncBudget scanCnt : BitVec 16) : Bool :=
  decide (syncBudget ≠ 0#16) && decide (syncBudget.toNat ≤ (scanAfter scanCnt).toNat)

/-- The byte completes the marker: `w = MARKER_WORD` (40_sync.md R100). -/
def markerFound (win : BitVec 32) (data : Byte) : Bool := windowAfter win data == Config.markerWord

/-- `CHECKSUM(L, t, d)`: the 8-bit sum of LENGTH, TYPE and the data bytes (42_checksum.md R150). -/
def checksumFn (len type : Byte) (data : List Byte) : Byte :=
  BitVec.ofNat 8 ((len.toNat + type.toNat + (data.map BitVec.toNat).sum) % 256)

/-- `chk = CHECKSUM(seg_len, seg_type, payload[0..seg_len))` over the meaningful entries only (42_checksum.md R150,
R151). Outside R150's domain, `L ≤ 32`, the value is free (DESIGN CHOICE, log 9). -/
def registerChecksum (segLen segType : Byte) (payload : Payload) : Byte :=
  if segLen.toNat ≤ Config.maxLen then checksumFn segLen segType (payload.toList.take segLen.toNat)
  else Config.freeChecksum segLen segType payload

/-- A status counter's increment: `(c + 1) mod 2^16` (10_state.md R29). -/
def bumpCounter (c : BitVec 16) : BitVec 16 := BitVec.ofNat 16 ((c.toNat + 1) % 2 ^ Config.cntW)

/-- 'Parsing a frame': `st ≠ AwaitSync` (10_state.md R36). No rule reads it. -/
def parsingFrame (st : BitVec 3) : Bool := st != 0#3

/-- 'A marker prefix is pending' (10_state.md R36). No rule reads it. -/
def markerPending (win : BitVec 32) : Bool :=
  win.extractLsb' 0 8 == 0x01#8 || win.extractLsb' 0 16 == 0x0102#16 || win.extractLsb' 0 24 == 0x010203#24

end Sys2Proof
end

