-- ==== Sys2Proof/Syntax.lean ====
section
/-! DEFINITION. The instructions: the 15 rows of spec/opcode_table.json (30_encoding.md R77), one constructor per row.
The operands of a row are the bits of its decode key that its mask leaves open, don't-care bits included, so that a key
and an instruction determine each other (DESIGN CHOICE, log 11). The rule of a row says which of them it reads. -/

namespace Sys2Proof

/-- One row of the opcode map of 30_encoding.md R77 with the open bits of its decode key. -/
inductive Instr where
  /-- RESET (43_control.md R172): `rst = 1`; every other bit of the key is a don't-care. -/
  | reset (st : BitVec 3) (clr valid : Bool) (data : Byte)
  /-- CLEAR (43_control.md R171): `rst = 0`, `clr = 1`; `st`, `valid` and `data` are don't-cares. -/
  | clear (st : BitVec 3) (valid : Bool) (data : Byte)
  /-- ST_RECOVER (43_control.md R173): `rst = clr = 0` with a reserved `st`; `valid` and `data` are don't-cares. -/
  | stRecover (st : BitVec 3) (valid : Bool) (data : Byte)
  /-- IDLE (43_control.md R170): `rst = clr = valid = 0` with a legal `st`; `data` is a don't-care. -/
  | idle (st : BitVec 3) (data : Byte)
  /-- SYNC_MATCH (40_sync.md R101). -/
  | syncMatch (data : Byte)
  /-- SYNC_SHIFT (40_sync.md R102). -/
  | syncShift (data : Byte)
  /-- SYNC_TIMEOUT (40_sync.md R103). -/
  | syncTimeout (data : Byte)
  /-- LEN_ACCEPT (41_fields.md R121). -/
  | lenAccept (data : Byte)
  /-- LEN_REJECT (41_fields.md R122). -/
  | lenReject (data : Byte)
  /-- TYPE_DATA (41_fields.md R123). -/
  | typeData (data : Byte)
  /-- TYPE_NODATA (41_fields.md R124). -/
  | typeNoData (data : Byte)
  /-- DATA_NEXT (41_fields.md R125). -/
  | dataNext (data : Byte)
  /-- DATA_LAST (41_fields.md R126). -/
  | dataLast (data : Byte)
  /-- CHK_PASS (42_checksum.md R152). -/
  | chkPass (data : Byte)
  /-- CHK_FAIL (42_checksum.md R153). -/
  | chkFail (data : Byte)
deriving DecidableEq, Repr

end Sys2Proof
end

