-- ==== Sys2Proof/Machine/Operands.lean ====
section
/-! DEFINITION. The operand forms: the fields of the input word (30_encoding.md R75) and of the decode key
(30_encoding.md R77). Every field is the bits as received, never extended or scaled (30_encoding.md R72). -/

namespace Sys2Proof

/-- `I[10]`: `rst` (30_encoding.md R75). -/
def wordRst (w : InputWord) : Bool := w.getLsbD 10

/-- `I[9]`: `clr` (30_encoding.md R75). -/
def wordClr (w : InputWord) : Bool := w.getLsbD 9

/-- `I[8]`: `valid` (30_encoding.md R75). -/
def wordValid (w : InputWord) : Bool := w.getLsbD 8

/-- `I[7:0]`: `data` (30_encoding.md R75). -/
def wordData (w : InputWord) : Byte := w.extractLsb' 0 8

/-- The input word with the given fields (30_encoding.md R75). -/
def packWord (rst clr valid : Bool) (data : Byte) : InputWord :=
  BitVec.ofBool rst ++ BitVec.ofBool clr ++ BitVec.ofBool valid ++ data

/-- The kinds of step (00_scope.md R11). -/
inductive StepKind where
  | byte
  | idle
  | clear
  | reset
deriving DecidableEq, Repr

/-- The kind of step an input word asks for (00_scope.md R11, 30_encoding.md R75). -/
def wordKind (w : InputWord) : StepKind :=
  if wordRst w then .reset else if wordClr w then .clear else if wordValid w then .byte else .idle

/-- The byte an input word carries into the stream, if its step is a byte step (00_scope.md R11). -/
def wordByte (w : InputWord) : Option Byte :=
  match wordKind w with
  | .byte => some (wordData w)
  | .idle => none
  | .clear => none
  | .reset => none

/-- The input word of a byte step: `0x100 | b` (30_encoding.md R83). -/
def byteWord (b : Byte) : InputWord := packWord false false true b

/-- The input word of an idle step: `0x000` (30_encoding.md R83). -/
def idleWord : InputWord := packWord false false false 0x00#8

/-- The input word of a clear step: `0x200` (30_encoding.md R83). -/
def clearWord : InputWord := packWord false true false 0x00#8

/-- The input word of a reset step: `0x400` (30_encoding.md R83). -/
def resetWord : InputWord := packWord true false false 0x00#8

/-- The decode key `K = {st[2:0], I[10:0]}` (30_encoding.md R77). -/
def keyOf (st : BitVec 3) (w : InputWord) : Key := st ++ w

/-- `K[13:11]`: the state tag (30_encoding.md R77). -/
def keySt (k : Key) : BitVec 3 := k.extractLsb' 11 3

/-- `K[10:0]`: the input word (30_encoding.md R77). -/
def keyWord (k : Key) : InputWord := k.extractLsb' 0 11

end Sys2Proof
end

