-- ==== Sys2Proof/WellFormed.lean ====
section
/-! DEFINITION. Well-formed instructions: the guards of 30_encoding.md R77 that read only the decode key. A guard that
reads a register stands in Decode.lean (`Instr.guardHolds`). -/

namespace Sys2Proof

/-- The key-only part of the guards of 30_encoding.md R77: `st ≥ 5` (ST_RECOVER), `st ≤ 4` (IDLE), `data ≤ 32`
(LEN_ACCEPT), `data > 32` (LEN_REJECT), and `data = 0x04` (SYNC_MATCH), which `w = 0x01020304` asks of bits 7:0 of `w`
(40_sync.md R100; DEDUCED, log 18). -/
def Instr.wellFormed : Instr → Bool
  | .reset _ _ _ _ => true
  | .clear _ _ _ => true
  | .stRecover st _ _ => decide (5 ≤ st.toNat)
  | .idle st _ => decide (st.toNat ≤ 4)
  | .syncMatch data => decide (data = 0x04#8)
  | .syncShift _ => true
  | .syncTimeout _ => true
  | .lenAccept data => decide (data.toNat ≤ Config.maxLen)
  | .lenReject data => decide (Config.maxLen < data.toNat)
  | .typeData _ => true
  | .typeNoData _ => true
  | .dataNext _ => true
  | .dataLast _ => true
  | .chkPass _ => true
  | .chkFail _ => true

end Sys2Proof
end

