-- ==== Sys2Proof/Decode.lean ====
section
/-! DEFINITION. The decoder: from the decode key and the values its guards read to the row that applies (30_encoding.md
R77, in the priority of 60_exceptions.md R206), total, rejecting by name. After it the encoder and the opcode map's masks,
matches and guards, written from the table of R77 and not from the decoder. -/

namespace Sys2Proof

/-- What the guards of 30_encoding.md R77 read besides the decode key. -/
structure GuardCtx where
  win : BitVec 32
  scanCnt : BitVec 16
  segLen : Byte
  segType : Byte
  payload : Payload
  idx : BitVec 6
  syncBudget : BitVec 16
deriving DecidableEq, Repr

/-- Why a key is refused. -/
inductive DecodeReject where
  /-- A byte step in AwaitData with `idx + 1 > seg_len`: the combination no row covers (30_encoding.md R77), ruled out by
  10_state.md R39 item 3. Safe: no claim can say what the hardware does there. -/
  | noRow
  /-- A number of 2^14 or more is no decode key (30_encoding.md R77). Safe. -/
  | notAKey
deriving DecidableEq, Repr

/-- The rows of AwaitSync (40_sync.md R100): a match takes precedence over the budget. -/
def decodeSync (win : BitVec 32) (scanCnt syncBudget : BitVec 16) (data : Byte) : Instr :=
  if markerFound win data then .syncMatch data
  else if budgetSpent syncBudget scanCnt then .syncTimeout data
  else .syncShift data

/-- The rows of AwaitLength (41_fields.md R121, R122; 30_encoding.md R73). -/
def decodeLength (data : Byte) : Instr :=
  if data.toNat ≤ Config.maxLen then .lenAccept data else .lenReject data

/-- The rows of AwaitType (41_fields.md R123, R124). -/
def decodeType (segLen : Byte) (data : Byte) : Instr :=
  if segLen = 0x00#8 then .typeNoData data else .typeData data

/-- The rows of AwaitData (41_fields.md R125, R126); no row covers `idx + 1 > seg_len` (DEDUCED, log 7). -/
def decodeData (idx : BitVec 6) (segLen : Byte) (data : Byte) : Except DecodeReject Instr :=
  if idx.toNat + 1 < segLen.toNat then .ok (.dataNext data)
  else if idx.toNat + 1 = segLen.toNat then .ok (.dataLast data)
  else .error .noRow

/-- The rows of AwaitChecksum, `chk` being the computed checksum (42_checksum.md R152, R153). -/
def decodeChecksum (chk : Byte) (data : Byte) : Instr :=
  if data = chk then .chkPass data else .chkFail data

/-- The row of a byte step, by the legal state tag (10_state.md R21). -/
def decodeByte (c : GuardCtx) (st : BitVec 3) (data : Byte) : Except DecodeReject Instr :=
  match st.toNat with
  | 0 => .ok (decodeSync c.win c.scanCnt c.syncBudget data)
  | 1 => .ok (decodeLength data)
  | 2 => .ok (decodeType c.segLen data)
  | 3 => decodeData c.idx c.segLen data
  | _ => .ok (decodeChecksum (registerChecksum c.segLen c.segType c.payload) data)

/-- The row that applies to a key: `rst`, then `clr`, then a reserved state code, then `valid`, then idle
(30_encoding.md R77, 60_exceptions.md R206). -/
def decode (c : GuardCtx) (k : Key) : Except DecodeReject Instr :=
  let st := keySt k
  let w := keyWord k
  if wordRst w then .ok (.reset st (wordClr w) (wordValid w) (wordData w))
  else if wordClr w then .ok (.clear st (wordValid w) (wordData w))
  else if 5 ≤ st.toNat then .ok (.stRecover st (wordValid w) (wordData w))
  else if wordValid w then decodeByte c st (wordData w)
  else .ok (.idle st (wordData w))

/-- The decode key of an instruction (30_encoding.md R77: `K[13:11] st`, `K[10] rst`, `K[9] clr`, `K[8] valid`,
`K[7:0] data`). -/
def encode : Instr → Key
  | .reset st clr valid data => keyOf st (packWord true clr valid data)
  | .clear st valid data => keyOf st (packWord false true valid data)
  | .stRecover st valid data => keyOf st (packWord false false valid data)
  | .idle st data => keyOf st (packWord false false false data)
  | .syncMatch data => keyOf 0#3 (byteWord data)
  | .syncShift data => keyOf 0#3 (byteWord data)
  | .syncTimeout data => keyOf 0#3 (byteWord data)
  | .lenAccept data => keyOf 1#3 (byteWord data)
  | .lenReject data => keyOf 1#3 (byteWord data)
  | .typeData data => keyOf 2#3 (byteWord data)
  | .typeNoData data => keyOf 2#3 (byteWord data)
  | .dataNext data => keyOf 3#3 (byteWord data)
  | .dataLast data => keyOf 3#3 (byteWord data)
  | .chkPass data => keyOf 4#3 (byteWord data)
  | .chkFail data => keyOf 4#3 (byteWord data)

/-- The 'mask' column of the opcode map (30_encoding.md R77). -/
def rowMask : Instr → Key
  | .reset _ _ _ _ => 0x0400#14
  | .clear _ _ _ => 0x0600#14
  | .stRecover _ _ _ => 0x0600#14
  | .idle _ _ => 0x0700#14
  | .syncMatch _ => 0x3F00#14
  | .syncShift _ => 0x3F00#14
  | .syncTimeout _ => 0x3F00#14
  | .lenAccept _ => 0x3F00#14
  | .lenReject _ => 0x3F00#14
  | .typeData _ => 0x3F00#14
  | .typeNoData _ => 0x3F00#14
  | .dataNext _ => 0x3F00#14
  | .dataLast _ => 0x3F00#14
  | .chkPass _ => 0x3F00#14
  | .chkFail _ => 0x3F00#14

/-- The 'match' column of the opcode map (30_encoding.md R77). -/
def rowMatch : Instr → Key
  | .reset _ _ _ _ => 0x0400#14
  | .clear _ _ _ => 0x0200#14
  | .stRecover _ _ _ => 0x0000#14
  | .idle _ _ => 0x0000#14
  | .syncMatch _ => 0x0100#14
  | .syncShift _ => 0x0100#14
  | .syncTimeout _ => 0x0100#14
  | .lenAccept _ => 0x0900#14
  | .lenReject _ => 0x0900#14
  | .typeData _ => 0x1100#14
  | .typeNoData _ => 0x1100#14
  | .dataNext _ => 0x1900#14
  | .dataLast _ => 0x1900#14
  | .chkPass _ => 0x2100#14
  | .chkFail _ => 0x2100#14

/-- The 'guard' column of the opcode map, whole: the key-only guards (`Instr.wellFormed`) and those that read a register
or `sync_budget` (30_encoding.md R77). -/
def Instr.guardHolds (c : GuardCtx) : Instr → Bool
  | .reset _ _ _ _ => true
  | .clear _ _ _ => true
  | .stRecover st _ _ => decide (5 ≤ st.toNat)
  | .idle st _ => decide (st.toNat ≤ 4)
  | .syncMatch data => decide (windowAfter c.win data = Config.markerWord)
  | .syncShift data => decide (windowAfter c.win data ≠ Config.markerWord) && !budgetSpent c.syncBudget c.scanCnt
  | .syncTimeout data => decide (windowAfter c.win data ≠ Config.markerWord) && budgetSpent c.syncBudget c.scanCnt
  | .lenAccept data => decide (data.toNat ≤ 32)
  | .lenReject data => decide (32 < data.toNat)
  | .typeData _ => decide (c.segLen ≠ 0#8)
  | .typeNoData _ => decide (c.segLen = 0#8)
  | .dataNext _ => decide (c.idx.toNat + 1 < c.segLen.toNat)
  | .dataLast _ => decide (c.idx.toNat + 1 = c.segLen.toNat)
  | .chkPass data => decide (data = registerChecksum c.segLen c.segType c.payload)
  | .chkFail data => decide (data ≠ registerChecksum c.segLen c.segType c.payload)

/-- The `seg_len` with which an AwaitData byte step has a row: 10_state.md R39 item 3 asks for `idx < seg_len` there
(DESIGN CHOICE, log 12). -/
def coveredSegLen (st : BitVec 3) (idx : BitVec 6) (segLen : Byte) : Byte :=
  if st = 3#3 ∧ segLen.toNat < idx.toNat + 1 then BitVec.ofNat 8 (idx.toNat + 1) else segLen

/-- The guard values in which the host's table words are decoded: every register at its reset value and
`sync_budget = 0`, with `seg_len = 1` in AwaitData (DESIGN CHOICE, log 12). -/
def tableCtx (k : Key) : GuardCtx :=
  { win := 0#32, scanCnt := 0#16, segLen := coveredSegLen (keySt k) 0#6 0x00#8, segType := 0x00#8,
    payload := Payload.zero, idx := 0#6, syncBudget := 0#16 }

/-- The instruction the decoder reads from a number, refusing what is no 14-bit key. -/
def decodeNat (w : Nat) : Except DecodeReject Instr :=
  if w < 2 ^ 14 then decode (tableCtx (BitVec.ofNat 14 w)) (BitVec.ofNat 14 w) else .error .notAKey

/-- The instruction the decoder reads from the bits `w` of an opcode-table word, in the guard values of `tableCtx`. -/
def decodeTableWord (nbits w : Nat) : Option Instr := (decodeNat (w % 2 ^ nbits)).toOption

end Sys2Proof
end

