-- ==== Sys2Proof/Machine/State.lean ====
section
/-! DEFINITION. The state. `Regs` is the tuple of 10_state.md R20, all of it and nothing else. `State` adds what a step
function of the state alone needs of the environment: the inputs still to come, the `sync_budget` lines, the output of the
latest step and its number (DESIGN CHOICE, log 1, 3, 4, 6). The SFR has no memory (20_memory.md R50), so there are no
cells (DEDUCED, log 17). -/

namespace Sys2Proof.Machine

/-- The registers of 10_state.md R20. -/
structure Regs where
  /-- `st`: the state tag, 0 to 4; 5 to 7 are reserved (10_state.md R21). -/
  st : BitVec 3
  /-- `win`: the sliding window, newest byte in bits 7:0 (10_state.md R22). -/
  win : BitVec 32
  /-- `scan_cnt`: the scan count (10_state.md R23). -/
  scanCnt : BitVec 16
  /-- `seg_len`: the accepted LENGTH (10_state.md R24). -/
  segLen : Byte
  /-- `seg_type`: the TYPE (10_state.md R25). -/
  segType : Byte
  /-- `payload[0..31]`: the payload register file (10_state.md R26). -/
  payload : Payload
  /-- `idx`: the data offset (10_state.md R27). -/
  idx : BitVec 6
  /-- `cnt_seg` (10_state.md R28). -/
  cntSeg : BitVec 16
  /-- `cnt_framing` (10_state.md R28). -/
  cntFraming : BitVec 16
  /-- `cnt_checksum` (10_state.md R28). -/
  cntChecksum : BitVec 16
  /-- `cnt_timeout` (10_state.md R28). -/
  cntTimeout : BitVec 16
deriving DecidableEq, Repr

/-- The content of a Segment event (60_exceptions.md R200, 42_checksum.md R152). -/
structure Segment where
  length : Byte
  type : Byte
  payload : Payload
  checksum : Byte
deriving DecidableEq, Repr

/-- The output of a step: `none` or exactly one event with its recorded information (00_scope.md R9, R10;
60_exceptions.md R200). -/
inductive Event where
  /-- No event. -/
  | none
  /-- Segment, raised by CHK_PASS. -/
  | segment (seg : Segment)
  /-- SyncTimeout with the scan count reached (60_exceptions.md R201). -/
  | syncTimeout (count : BitVec 16)
  /-- FramingError with the rejected LENGTH byte (60_exceptions.md R202). -/
  | framingError (len : Byte)
  /-- ChecksumMismatch with the received and the computed checksum (60_exceptions.md R203). -/
  | checksumMismatch (received computed : Byte)
deriving DecidableEq, Repr

/-- What the environment presents in one step: the input word and the `sync_budget` value (00_scope.md R10,
70_reset_and_hazards.md R239). -/
structure Drive where
  word : InputWord
  budget : BitVec 16
deriving DecidableEq, Repr

/-- The machine's state. -/
structure State where
  /-- The registers of 10_state.md R20. -/
  regs : Regs
  /-- What the environment presents in the coming steps, oldest first (DESIGN CHOICE, log 1). -/
  inputs : List Drive
  /-- The value on the `sync_budget` lines in the latest step (10_state.md R31; DESIGN CHOICE, log 3). -/
  syncBudget : BitVec 16
  /-- The event of the latest step, an output and not state of the SFR (00_scope.md R9; DESIGN CHOICE, log 4). -/
  event : Event
  /-- The number of the latest step (70_reset_and_hazards.md R239; DESIGN CHOICE, log 6). -/
  stepNo : Nat
deriving DecidableEq, Repr

/-- Why the machine stops with a fault. The hardware has no fault (60_exceptions.md R210); this one is the model's. -/
inductive Fault where
  /-- Raised by DATA_NEXT and DATA_LAST where `idx ≥ 32`: the register file has no such entry (20_memory.md R50,
  10_state.md R26). Safe: 41_fields.md R127 rules it out from reset (DESIGN CHOICE, log 8). -/
  | payloadRange (idx : BitVec 6)
deriving DecidableEq, Repr

/-- Why the model gives a step no meaning. -/
inductive Refusal where
  /-- Raised by `exec` for an instruction without a meaning. Safe. -/
  | notModelled (mnemonic : String)
  /-- Raised by `step` for a byte step in AwaitData with `idx + 1 > seg_len`, where no row of 30_encoding.md R77 applies.
  Safe: 10_state.md R39 item 3 rules it out from reset (DEDUCED, log 7). -/
  | noRow
deriving DecidableEq, Repr

/-- The reset values of 10_state.md R20. -/
def Regs.reset : Regs :=
  { st := 0#3, win := 0#32, scanCnt := 0#16, segLen := 0x00#8, segType := 0x00#8, payload := Payload.zero, idx := 0#6,
    cntSeg := 0#16, cntFraming := 0#16, cntChecksum := 0#16, cntTimeout := 0#16 }

/-- The machine right after a reset step (70_reset_and_hazards.md R230), the reset step being step 1, with no input
queued and 0 on the `sync_budget` lines (DESIGN CHOICE, log 1, 3, 6). -/
def State.reset : State :=
  { regs := Regs.reset, inputs := [], syncBudget := 0#16, event := .none, stepNo := 1 }

end Sys2Proof.Machine
end

