-- ==== Sys2Proof/Machine/Ops.lean ====
section
/-! DEFINITION. The named operations the step rules share: ParserReset and FullReset (10_state.md R33, R34), the status
counters (10_state.md R28), the payload store (10_state.md R37), the end of a step, the abort (60_exceptions.md R207), and
taking the next input word (30_encoding.md R75). There is no return operation: the abort is the return to sync-seeking
(60_exceptions.md R208). -/

namespace Sys2Proof.Machine

/-- `ParserReset()`: the ParserState back to its initial value, the counters kept (10_state.md R33). -/
def Regs.parserReset (r : Regs) : Regs :=
  { r with
    st := 0#3, win := 0#32, scanCnt := 0#16, segLen := 0x00#8, segType := 0x00#8, payload := Payload.zero, idx := 0#6 }

/-- `FullReset()`: ParserReset and every counter to 0 (10_state.md R34). -/
def Regs.fullReset (r : Regs) : Regs :=
  { r.parserReset with cntSeg := 0#16, cntFraming := 0#16, cntChecksum := 0#16, cntTimeout := 0#16 }

/-- `cnt_seg <- (cnt_seg + 1) mod 2^16` (10_state.md R28, R29). -/
def Regs.countSeg (r : Regs) : Regs := { r with cntSeg := bumpCounter r.cntSeg }

/-- `cnt_framing <- (cnt_framing + 1) mod 2^16` (10_state.md R28, R29). -/
def Regs.countFraming (r : Regs) : Regs := { r with cntFraming := bumpCounter r.cntFraming }

/-- `cnt_checksum <- (cnt_checksum + 1) mod 2^16` (10_state.md R28, R29). -/
def Regs.countChecksum (r : Regs) : Regs := { r with cntChecksum := bumpCounter r.cntChecksum }

/-- `cnt_timeout <- (cnt_timeout + 1) mod 2^16` (10_state.md R28, R29). -/
def Regs.countTimeout (r : Regs) : Regs := { r with cntTimeout := bumpCounter r.cntTimeout }

/-- `chk`, the computed checksum of the frame in progress (42_checksum.md R150). -/
def Regs.chk (r : Regs) : Byte := registerChecksum r.segLen r.segType r.payload

/-- `payload[idx] <- data; idx <- idx + 1` (41_fields.md R125, R126); an entry beyond the register file does not exist
(DESIGN CHOICE, log 8). -/
def Regs.storeData (r : Regs) (data : Byte) : Except Fault Regs :=
  if h : r.idx.toNat < 32 then
    .ok { r with payload := r.payload.set r.idx.toNat data h, idx := BitVec.ofNat 6 (r.idx.toNat + 1) }
  else .error (.payloadRange r.idx)

/-- The end of a step: the registers take their new values all together and the step's event is driven (00_scope.md R9,
R10). -/
def State.commit (s : State) (r : Regs) (e : Event) : Host.Outcome State Fault Refusal :=
  .next { s with regs := r, event := e }

/-- A return to AwaitSync that discards the frame in progress (60_exceptions.md R207): ParserReset, one status counter
counted, the event raised. Nothing is saved. -/
def State.backToSync (s : State) (count : Regs → Regs) (e : Event) : Host.Outcome State Fault Refusal :=
  s.commit (count s.regs.parserReset) e

/-- Store a DATA byte and move to the state tag `st` (41_fields.md R125, R126). -/
def State.takeData (s : State) (st : BitVec 3) (data : Byte) : Host.Outcome State Fault Refusal :=
  match s.regs.storeData data with
  | .ok r => s.commit { r with st := st } .none
  | .error f => .fault f

/-- What the environment presents in the coming step: the head of the queue, or, where it is empty, an idle word with the
`sync_budget` lines as they are (30_encoding.md R75, 60_exceptions.md R211; DESIGN CHOICE, log 1, 2). -/
def State.drive (s : State) : Drive :=
  match s.inputs with
  | [] => { word := idleWord, budget := s.syncBudget }
  | d :: _ => d

/-- The state in which the coming step's row is executed: its inputs taken and its number counted (DESIGN CHOICE, log 1, 6). -/
def State.sampled (s : State) : State :=
  { s with inputs := s.inputs.tail, syncBudget := s.drive.budget, stepNo := s.stepNo + 1 }

/-- What the guards of 30_encoding.md R77 read, with a given `sync_budget`. -/
def Regs.guardCtx (r : Regs) (budget : BitVec 16) : GuardCtx :=
  { win := r.win, scanCnt := r.scanCnt, segLen := r.segLen, segType := r.segType, payload := r.payload, idx := r.idx,
    syncBudget := budget }

/-- The row that applies in the coming step (30_encoding.md R77). -/
def State.fetch (s : State) : Except DecodeReject Instr :=
  decode (s.regs.guardCtx s.drive.budget) (keyOf s.regs.st s.drive.word)

/-- `s` with the decode key of the coming step set to `k`: its input word queued first, under the `sync_budget` on the
lines, and its state tag in `st`; in AwaitData `seg_len` covers the byte (DESIGN CHOICE, log 12). -/
def State.presentKey (s : State) (k : Key) : State :=
  { s with
    regs := { s.regs with st := keySt k, segLen := coveredSegLen (keySt k) s.regs.idx s.regs.segLen },
    inputs := { word := keyWord k, budget := s.syncBudget } :: s.inputs }

/-- `s` with a sequence of inputs queued in place of whatever stood in the queue. -/
def State.withInputs (s : State) (ds : List Drive) : State := { s with inputs := ds }

end Sys2Proof.Machine
end

