-- ==== Sys2Proof/Machine/Control.lean ====
section
/-! DEFINITION. The control rows (43_control.md R170 to R173). None of them reads a bit of its key beside those that
select it (30_encoding.md R75, R82). -/

namespace Sys2Proof.Machine

/-- RESET (43_control.md R172): FullReset; no event. -/
def execReset (s : State) : Host.Outcome State Fault Refusal := s.commit s.regs.fullReset .none

/-- CLEAR (43_control.md R171): ParserReset, the counters kept; no event; a byte in the word is dropped. -/
def execClear (s : State) : Host.Outcome State Fault Refusal := s.commit s.regs.parserReset .none

/-- ST_RECOVER (43_control.md R173): ParserReset, the counters kept; no event; a byte in the word is dropped. -/
def execStRecover (s : State) : Host.Outcome State Fault Refusal := s.commit s.regs.parserReset .none

/-- IDLE (43_control.md R170): nothing is written; no event. -/
def execIdle (s : State) : Host.Outcome State Fault Refusal := s.commit s.regs .none

end Sys2Proof.Machine
end

