-- ==== Sys2Proof/Machine/Fields.lean ====
section
/-! DEFINITION. The frame-field parser's rows (41_fields.md R121 to R126). -/

namespace Sys2Proof.Machine

/-- LEN_ACCEPT (41_fields.md R121): `seg_len <- data`, to AwaitType. -/
def execLenAccept (data : Byte) (s : State) : Host.Outcome State Fault Refusal :=
  s.commit { s.regs with segLen := data, st := 2#3 } .none

/-- LEN_REJECT (41_fields.md R122): the abort with FramingError(data). -/
def execLenReject (data : Byte) (s : State) : Host.Outcome State Fault Refusal :=
  s.backToSync Regs.countFraming (.framingError data)

/-- TYPE_DATA (41_fields.md R123): `seg_type <- data`, `idx <- 0`, to AwaitData. -/
def execTypeData (data : Byte) (s : State) : Host.Outcome State Fault Refusal :=
  s.commit { s.regs with segType := data, idx := 0#6, st := 3#3 } .none

/-- TYPE_NODATA (41_fields.md R124): `seg_type <- data`, `idx <- 0`, to AwaitChecksum. -/
def execTypeNoData (data : Byte) (s : State) : Host.Outcome State Fault Refusal :=
  s.commit { s.regs with segType := data, idx := 0#6, st := 4#3 } .none

/-- DATA_NEXT (41_fields.md R125): `payload[idx] <- data`, `idx <- idx + 1`; `st` keeps its value. -/
def execDataNext (data : Byte) (s : State) : Host.Outcome State Fault Refusal :=
  s.takeData s.regs.st data

/-- DATA_LAST (41_fields.md R126): `payload[idx] <- data`, `idx <- idx + 1`, to AwaitChecksum. -/
def execDataLast (data : Byte) (s : State) : Host.Outcome State Fault Refusal :=
  s.takeData 4#3 data

end Sys2Proof.Machine
end

