-- ==== Sys2Proof/Machine/Sync.lean ====
section
/-! DEFINITION. The sync-marker detector's rows (40_sync.md R101 to R103). A meaning is the effect of its row; that the
row's guard holds is the decoder's part (DESIGN CHOICE, log 10). -/

namespace Sys2Proof.Machine

/-- SYNC_MATCH (40_sync.md R101): to AwaitLength, the window and the scan count cleared; no event. -/
def execSyncMatch (_data : Byte) (s : State) : Host.Outcome State Fault Refusal :=
  s.commit { s.regs with st := 1#3, win := 0#32, scanCnt := 0#16 } .none

/-- SYNC_SHIFT (40_sync.md R102): `win <- w`, `scan_cnt <- c`; no event. -/
def execSyncShift (data : Byte) (s : State) : Host.Outcome State Fault Refusal :=
  s.commit { s.regs with win := windowAfter s.regs.win data, scanCnt := scanAfter s.regs.scanCnt } .none

/-- SYNC_TIMEOUT (40_sync.md R103): `win <- w`, `scan_cnt <- 0`, `cnt_timeout` counted, SyncTimeout(c) raised. -/
def execSyncTimeout (data : Byte) (s : State) : Host.Outcome State Fault Refusal :=
  s.commit { s.regs.countTimeout with win := windowAfter s.regs.win data, scanCnt := 0#16 }
    (.syncTimeout (scanAfter s.regs.scanCnt))

end Sys2Proof.Machine
end

