-- ==== Sys2Proof/Machine/Validator.lean ====
section
/-! DEFINITION. The checksum validator's rows (42_checksum.md R152, R153). -/

namespace Sys2Proof.Machine

/-- The Segment CHK_PASS emits: the registers at the start of the step and the received byte (42_checksum.md R152,
30_encoding.md R79). -/
def Regs.segment (r : Regs) (received : Byte) : Segment :=
  { length := r.segLen, type := r.segType, payload := r.payload, checksum := received }

/-- CHK_PASS (42_checksum.md R152): the Segment emitted, `cnt_seg` counted, ParserReset. -/
def execChkPass (data : Byte) (s : State) : Host.Outcome State Fault Refusal :=
  s.backToSync Regs.countSeg (.segment (s.regs.segment data))

/-- CHK_FAIL (42_checksum.md R153): the abort with ChecksumMismatch(data, chk). -/
def execChkFail (data : Byte) (s : State) : Host.Outcome State Fault Refusal :=
  s.backToSync Regs.countChecksum (.checksumMismatch data s.regs.chk)

end Sys2Proof.Machine
end

