-- ==== Sys2Proof/Machine/Dispatch.lean ====
section
/-! DEFINITION. One arm per row of spec/opcode_table.json. -/

namespace Sys2Proof.Machine

/-- The effect of a row of 30_encoding.md R77. -/
def exec (i : Instr) (s : State) : Host.Outcome State Fault Refusal :=
  match i with
  | .reset _ _ _ _ => Sys2Proof.Machine.execReset s
  | .clear _ _ _ => Sys2Proof.Machine.execClear s
  | .stRecover _ _ _ => Sys2Proof.Machine.execStRecover s
  | .idle _ _ => Sys2Proof.Machine.execIdle s
  | .syncMatch data => Sys2Proof.Machine.execSyncMatch data s
  | .syncShift data => Sys2Proof.Machine.execSyncShift data s
  | .syncTimeout data => Sys2Proof.Machine.execSyncTimeout data s
  | .lenAccept data => Sys2Proof.Machine.execLenAccept data s
  | .lenReject data => Sys2Proof.Machine.execLenReject data s
  | .typeData data => Sys2Proof.Machine.execTypeData data s
  | .typeNoData data => Sys2Proof.Machine.execTypeNoData data s
  | .dataNext data => Sys2Proof.Machine.execDataNext data s
  | .dataLast data => Sys2Proof.Machine.execDataLast data s
  | .chkPass data => Sys2Proof.Machine.execChkPass data s
  | .chkFail data => Sys2Proof.Machine.execChkFail data s

end Sys2Proof.Machine
end

