-- ==== Sys2Proof/Machine/Step.lean ====
section
/-! DEFINITION. One step (00_scope.md R10): take the input word, select the row that applies, execute it. -/

namespace Sys2Proof.Machine

/-- One step: the row that 30_encoding.md R77 selects is executed on the sampled state. Where no row applies the model
refuses by name (DEDUCED, log 7). -/
def step (s : State) : Host.Outcome State Fault Refusal :=
  match s.fetch with
  | .ok i => exec i s.sampled
  | .error _ => .refused .noRow

/-- `s` with the table word `w` as the decode key of its next step (DESIGN CHOICE, log 12). -/
def State.withFetchWord (s : State) (nbits w : Nat) : State := s.presentKey (BitVec.ofNat 14 (w % 2 ^ nbits))

end Sys2Proof.Machine
end

