-- ==== Sys2Proof/Machine/Compact.lean ====
section
/-! DEFINITION. The equivalent representations the spec allows: a 2-bit progress counter in place of the window (40_sync.md
R106) and a running sum in place of the checksum over the register file (42_checksum.md R155), in one second design of the
receiver, written from those two rules. The SFR's own state is `Regs`. -/

namespace Sys2Proof.Machine

/-- The registers of the second design: `k` for `win`, and `acc`. -/
structure Compact where
  st : BitVec 3
  k : BitVec 2
  acc : Byte
  scanCnt : BitVec 16
  segLen : Byte
  segType : Byte
  payload : Payload
  idx : BitVec 6
  cntSeg : BitVec 16
  cntFraming : BitVec 16
  cntChecksum : BitVec 16
  cntTimeout : BitVec 16
deriving DecidableEq, Repr

/-- `k1`, the progress after a byte (40_sync.md R106). -/
def progressAfter (k : BitVec 2) (data : Byte) : Nat :=
  if data = Config.marker.getD k.toNat 0x00#8 then k.toNat + 1 else if data = 0x01#8 then 1 else 0

/-- ParserReset in the second design: `k <- 0` and `acc <- 0` with the rest (40_sync.md R106, 42_checksum.md R155). -/
def Compact.parserReset (m : Compact) : Compact :=
  { m with
    st := 0#3, k := 0#2, acc := 0x00#8, scanCnt := 0#16, segLen := 0x00#8, segType := 0x00#8, payload := Payload.zero,
    idx := 0#6 }

/-- A byte step in AwaitSync after which the progress is `k1` (40_sync.md R106, R101 to R103). -/
def Compact.syncProgress (budget : BitVec 16) (m : Compact) (k1 : Nat) : Compact × Event :=
  if k1 = 4 then ({ m with st := 1#3, k := 0#2, scanCnt := 0#16 }, .none)
  else if budgetSpent budget m.scanCnt then
    ({ m with k := BitVec.ofNat 2 k1, scanCnt := 0#16, cntTimeout := bumpCounter m.cntTimeout },
      .syncTimeout (scanAfter m.scanCnt))
  else ({ m with k := BitVec.ofNat 2 k1, scanCnt := scanAfter m.scanCnt }, .none)

/-- A byte step in AwaitSync, with `k` for `win` (40_sync.md R106). -/
def Compact.syncByte (budget : BitVec 16) (m : Compact) (data : Byte) : Compact × Event :=
  m.syncProgress budget (progressAfter m.k data)

/-- A byte step in AwaitData, with `acc` (42_checksum.md R155). Where the register invariant fails the spec gives no effect
and the SFR's model stops (log 7, log 8); this design is total there (DESIGN CHOICE, log 20): with `idx ≥ 32` no entry is
written and `idx + 1` wraps modulo 64, and with `idx + 1 > seg_len` the state stays AwaitData. -/
def Compact.dataByte (m : Compact) (data : Byte) : Compact :=
  { m with
    payload := m.payload.setIfInBounds m.idx.toNat data, idx := BitVec.ofNat 6 (m.idx.toNat + 1), acc := m.acc + data,
    st := if m.idx.toNat + 1 = m.segLen.toNat then 4#3 else 3#3 }

/-- A byte step in AwaitChecksum: the received byte against `acc` (42_checksum.md R155). -/
def Compact.checksumByte (m : Compact) (data : Byte) : Compact × Event :=
  if data = m.acc then
    ({ m.parserReset with cntSeg := bumpCounter m.cntSeg },
      .segment { length := m.segLen, type := m.segType, payload := m.payload, checksum := data })
  else ({ m.parserReset with cntChecksum := bumpCounter m.cntChecksum }, .checksumMismatch data m.acc)

/-- A byte step of the second design, by state tag. -/
def Compact.byteStep (budget : BitVec 16) (m : Compact) (data : Byte) : Compact × Event :=
  match m.st.toNat with
  | 0 => m.syncByte budget data
  | 1 =>
    if data.toNat ≤ Config.maxLen then ({ m with segLen := data, acc := data, st := 2#3 }, .none)
    else ({ m.parserReset with cntFraming := bumpCounter m.cntFraming }, .framingError data)
  | 2 => ({ m with segType := data, idx := 0#6, acc := m.acc + data, st := if m.segLen = 0x00#8 then 4#3 else 3#3 }, .none)
  | 3 => (m.dataByte data, .none)
  | _ => m.checksumByte data

/-- One step of the second design on an input word. -/
def Compact.step (budget : BitVec 16) (m : Compact) (w : InputWord) : Compact × Event :=
  match wordKind w with
  | .reset =>
    ({ m.parserReset with cntSeg := 0#16, cntFraming := 0#16, cntChecksum := 0#16, cntTimeout := 0#16 }, .none)
  | .clear => (m.parserReset, .none)
  | .byte => if 5 ≤ m.st.toNat then (m.parserReset, .none) else m.byteStep budget (wordData w)
  | .idle => if 5 ≤ m.st.toNat then (m.parserReset, .none) else (m, .none)

/-- The length of the longest suffix of the window's bytes that is a proper beginning of the marker (40_sync.md R106). -/
def progressOf (win : BitVec 32) : BitVec 2 :=
  if win.extractLsb' 0 24 = 0x010203#24 then 3#2
  else if win.extractLsb' 0 16 = 0x0102#16 then 2#2
  else if win.extractLsb' 0 8 = 0x01#8 then 1#2
  else 0#2

/-- The running sum at a state of the SFR: the bytes of LENGTH, TYPE and DATA taken so far (42_checksum.md R155). At a
reserved state tag it is a value no claim reads (DESIGN CHOICE, log 20). -/
def Regs.runningSum (r : Regs) : Byte :=
  if r.st.toNat ≤ 1 then 0x00#8
  else if r.st = 2#3 then r.segLen
  else checksumFn r.segLen r.segType (r.payload.toList.take r.idx.toNat)

/-- The state of the second design that stands for a state of the SFR. -/
def Compact.ofRegs (r : Regs) : Compact :=
  { st := r.st, k := progressOf r.win, acc := r.runningSum, scanCnt := r.scanCnt, segLen := r.segLen, segType := r.segType,
    payload := r.payload, idx := r.idx, cntSeg := r.cntSeg, cntFraming := r.cntFraming, cntChecksum := r.cntChecksum,
    cntTimeout := r.cntTimeout }

end Sys2Proof.Machine
end

