-- ==== Sys2Proof/Machine/Outputs.lean ====
section
/-! DEFINITION. The outputs of a step: the event code and its information (30_encoding.md R78), the segment bus
(30_encoding.md R79) and the counters (10_state.md R32). They are functions of the state after the step, the counters of
the state before it. -/

namespace Sys2Proof.Machine

/-- `evt_code` of an event (30_encoding.md R78). -/
def Event.code : Event → BitVec 3
  | .none => 0#3
  | .segment _ => 1#3
  | .syncTimeout _ => 2#3
  | .framingError _ => 3#3
  | .checksumMismatch _ _ => 4#3

/-- `evt_info` of an event (30_encoding.md R78). -/
def Event.info : Event → BitVec 16
  | .none => 0x0000#16
  | .segment _ => 0x0000#16
  | .syncTimeout count => count
  | .framingError len => 0x00#8 ++ len
  | .checksumMismatch received computed => received ++ computed

/-- `evt_code` as driven in the step that led to `s`. -/
def State.evtCode (s : State) : BitVec 3 := s.event.code

/-- `evt_info` as driven in the step that led to `s`. -/
def State.evtInfo (s : State) : BitVec 16 := s.event.info

/-- Bytes packed with entry `i` at bits `[8i+7 : 8i]` (30_encoding.md R79). -/
def packBytes : List Byte → BitVec 256
  | [] => 0#256
  | b :: bs => (packBytes bs <<< 8) ||| b.setWidth 256

/-- `seg_len_o` in the step that led to `s`; free without a Segment (30_encoding.md R79; DESIGN CHOICE, log 5). -/
def State.segLenO (s : State) : Byte :=
  match s.event with
  | .segment g => g.length
  | _ => Config.freeSegLen s.stepNo

/-- `seg_type_o` in the step that led to `s`; free without a Segment (30_encoding.md R79; DESIGN CHOICE, log 5). -/
def State.segTypeO (s : State) : Byte :=
  match s.event with
  | .segment g => g.type
  | _ => Config.freeSegType s.stepNo

/-- `seg_chk_o` in the step that led to `s`; free without a Segment (30_encoding.md R79; DESIGN CHOICE, log 5). -/
def State.segChkO (s : State) : Byte :=
  match s.event with
  | .segment g => g.checksum
  | _ => Config.freeSegChk s.stepNo

/-- `seg_payload_o` in the step that led to `s`; free without a Segment (30_encoding.md R79; DESIGN CHOICE, log 5). -/
def State.segPayloadO (s : State) : BitVec 256 :=
  match s.event with
  | .segment g => packBytes g.payload.toList
  | _ => Config.freeSegPayload s.stepNo

/-- The four counter outputs in the step that starts in `s`: `cnt_seg`, `cnt_framing`, `cnt_checksum`, `cnt_timeout`
(10_state.md R32: the register values at the start of the step). -/
def State.counterOutputs (s : State) : BitVec 16 × BitVec 16 × BitVec 16 × BitVec 16 :=
  (s.regs.cntSeg, s.regs.cntFraming, s.regs.cntChecksum, s.regs.cntTimeout)

end Sys2Proof.Machine
end

