-- ==== Sys2Proof/Machine/Stream.lean ====
section
/-! DEFINITION. The wire form of a frame (30_encoding.md R70, R80) and the stream notation (30_encoding.md R83 to R85).
Neither is hardware of the SFR: they say what a byte source may present. -/

namespace Sys2Proof.Machine

/-- `EncodeFrame(t, d)`: marker, LENGTH, TYPE, DATA, CHECKSUM (30_encoding.md R80; it requires `|d| ≤ 32`;
DESIGN CHOICE beyond, log 19). -/
def encodeFrame (type : Byte) (data : List Byte) : List Byte :=
  let len := BitVec.ofNat 8 data.length
  Config.marker ++ [len, type] ++ data ++ [checksumFn len type data]

/-- The payload register file that holds `data` in arrival order and `0x00` elsewhere (20_memory.md R51, 10_state.md
R39 item 6). -/
def payloadOf (data : List Byte) : Payload := Vector.ofFn fun i => data.getD i.val 0x00#8

/-- The Segment of a frame with the given TYPE and DATA (42_checksum.md R156). -/
def segmentOf (type : Byte) (data : List Byte) : Segment :=
  let len := BitVec.ofNat 8 data.length
  { length := len, type := type, payload := payloadOf data, checksum := checksumFn len type data }

/-- A statement of the stream notation (30_encoding.md R83, R84). -/
inductive Stmt where
  | byte (bs : List Byte)
  | idle (n : Nat)
  | clr
  | rst
  | budget (v : BitVec 16)
  | sync
  | frame (type : Byte) (data : List Byte)
  | framex (len type : Byte) (data : List Byte) (chk : Byte)
deriving DecidableEq, Repr

/-- The input words of a statement (30_encoding.md R83, R84). `FRAME` requires `L ≤ 32`; a longer one has no input words
(DESIGN CHOICE, log 19). -/
def Stmt.words : Stmt → Option (List InputWord)
  | .byte bs => some (bs.map byteWord)
  | .idle n => some (List.replicate n idleWord)
  | .clr => some [clearWord]
  | .rst => some [resetWord]
  | .budget _ => some []
  | .sync => some (Config.marker.map byteWord)
  | .frame type data => if data.length ≤ Config.maxLen then some ((encodeFrame type data).map byteWord) else none
  | .framex len type data chk => some ((Config.marker ++ [len, type] ++ data ++ [chk]).map byteWord)

/-- The `sync_budget` after a statement (30_encoding.md R83). -/
def Stmt.budgetAfter (b : BitVec 16) : Stmt → BitVec 16
  | .byte _ => b
  | .idle _ => b
  | .clr => b
  | .rst => b
  | .budget v => v
  | .sync => b
  | .frame _ _ => b
  | .framex _ _ _ _ => b

/-- The inputs a stream stands for, the budget before it being `b` (30_encoding.md R83, R85; `0` before any `BUDGET`). -/
def streamInputs (b : BitVec 16) : List Stmt → Option (List Drive)
  | [] => some []
  | x :: xs =>
    match x.words, streamInputs (x.budgetAfter b) xs with
    | some ws, some ds => some (ws.map (fun w => { word := w, budget := x.budgetAfter b }) ++ ds)
    | _, _ => none

/-- Byte steps that carry `bs` under one `sync_budget` (30_encoding.md R83 `BYTE`). -/
def byteInputs (budget : BitVec 16) (bs : List Byte) : List Drive :=
  bs.map fun b => { word := byteWord b, budget := budget }

/-- The bytes of the stream that a sequence of inputs carries: those of its byte steps (00_scope.md R11). -/
def streamBytes (ds : List Drive) : List Byte := ds.filterMap fun d => wordByte d.word

end Sys2Proof.Machine
end

