-- ==== Sys2Proof/Machine/Run.lean ====
section
/-! DEFINITION. Runs and their observation (70_reset_and_hazards.md R239) and the launch premise (R231). -/

namespace Sys2Proof.Machine

/-- What the step that led to `t` adds to a run's observation: its number and its event, if `evt_code ≠ 0`
(70_reset_and_hazards.md R239). -/
def State.observed (t : State) : List (Nat × Event) := if t.event = .none then [] else [(t.stepNo, t.event)]

/-- `n` steps from `s`: the `(step number, event)` pairs of the steps with an event, and the last state
(70_reset_and_hazards.md R239). -/
def observe : Nat → State → Host.Outcome (List (Nat × Event) × State) Fault Refusal
  | 0, s => .next ([], s)
  | n + 1, s =>
    match step s with
    | .next t =>
      match observe n t with
      | .next (es, u) => .next (t.observed ++ es, u)
      | .fault f => .fault f
      | .refused r => .refused r
    | .fault f => .fault f
    | .refused r => .refused r

/-- The observation of a sequence of inputs from `s`, one step an input. -/
def observeInputs (s : State) (ds : List Drive) : Host.Outcome (List (Nat × Event) × State) Fault Refusal :=
  observe ds.length (s.withInputs ds)

/-- A run: a sequence of inputs that begins with a reset step (70_reset_and_hazards.md R231, R239). -/
def isRun : List Drive → Bool
  | [] => false
  | d :: _ => wordRst d.word

end Sys2Proof.Machine
end

