-- ==== Sys2Proof/Safety.lean ====
section
/-! DEFINITION. What holds of a run that began with a reset step, in the terms claims use: the invariant of 10_state.md
R39 and the properties of an emitted Segment (42_checksum.md R156). -/

namespace Sys2Proof.Machine

/-- Items 1 to 7 of 10_state.md R39. Item 8 is about the history of `sync_budget` and is a statement of its own. -/
abbrev Regs.Inv (r : Regs) : Prop :=
  r.st.toNat ≤ 4 ∧
  r.segLen.toNat ≤ 32 ∧
  r.idx.toNat ≤ r.segLen.toNat ∧
  (r.st = 3#3 → r.idx.toNat < r.segLen.toNat) ∧
  (r.st = 4#3 → r.idx.toNat = r.segLen.toNat) ∧
  (r.st = 0#3 → r.segLen = 0x00#8 ∧ r.segType = 0x00#8 ∧ r.idx = 0#6 ∧ r.payload = Payload.zero) ∧
  (r.st ≠ 0#3 → r.win = 0#32 ∧ r.scanCnt = 0#16) ∧
  (∀ i : Fin 32, r.idx.toNat ≤ i.val → r.payload[i] = 0x00#8) ∧
  (r.st = 1#3 ∨ r.st = 2#3 → r.idx = 0#6)

/-- The registers at an entry into AwaitSync: AwaitSync with an empty window and a fresh scan count (10_state.md R33). -/
abbrev Regs.Fresh (r : Regs) : Prop := r = r.parserReset

/-- A complete, checksum-valid Segment: the first three items of 42_checksum.md R156. -/
abbrev Segment.Valid (g : Segment) : Prop :=
  g.length.toNat ≤ 32 ∧
  g.checksum = checksumFn g.length g.type (g.payload.toList.take g.length.toNat) ∧
  ∀ i : Fin 32, g.length.toNat ≤ i.val → g.payload[i] = 0x00#8

/-- The bytes hold the complete sync marker somewhere (90_conflicts.md C4). -/
abbrev holdsMarker (bs : List Byte) : Prop := Config.marker <:+: bs

/-- The input word of a drive takes the byte or idle kind (43_control.md R174: no clear or reset step). -/
abbrev Drive.quiet (d : Drive) : Prop := wordRst d.word = false ∧ wordClr d.word = false

/-- The event is a Segment. -/
def Event.isSegment : Event → Bool
  | .segment _ => true
  | _ => false

/-- The registers of 10_state.md R20, by name. -/
inductive RegName where
  | st
  | win
  | scanCnt
  | segLen
  | segType
  | payload
  | idx
  | cntSeg
  | cntFraming
  | cntChecksum
  | cntTimeout
deriving DecidableEq, Repr

/-- The ParserState registers (00_scope.md section 5, 10_state.md R33). -/
def RegName.parserState : List RegName := [.st, .win, .scanCnt, .segLen, .segType, .payload, .idx]

/-- The 'registers written' of each row's rule (10_state.md R20's 'written by' column, read by row). -/
def writtenBy : Instr → List RegName
  | .reset _ _ _ _ => RegName.parserState ++ [.cntSeg, .cntFraming, .cntChecksum, .cntTimeout]
  | .clear _ _ _ => RegName.parserState
  | .stRecover _ _ _ => RegName.parserState
  | .idle _ _ => []
  | .syncMatch _ => [.st, .win, .scanCnt]
  | .syncShift _ => [.win, .scanCnt]
  | .syncTimeout _ => [.win, .scanCnt, .cntTimeout]
  | .lenAccept _ => [.segLen, .st]
  | .lenReject _ => RegName.parserState ++ [.cntFraming]
  | .typeData _ => [.segType, .idx, .st]
  | .typeNoData _ => [.segType, .idx, .st]
  | .dataNext _ => [.payload, .idx]
  | .dataLast _ => [.payload, .idx, .st]
  | .chkPass _ => RegName.parserState ++ [.cntSeg]
  | .chkFail _ => RegName.parserState ++ [.cntChecksum]

end Sys2Proof.Machine
end

