-- ==== Sys2Proof/Certificates/Slice0/Obligations.lean ====
section
/-! DEFINITION. The statements for the provers. Each formalises what the title says; its rule or the sections it rests on are
in OBLIGATIONS.json and in the docstring. A statement with basis derived that rests on an inference the spec marks as its own
or on a choice of this model says so. -/

open Sys2Proof
open Sys2Proof.Machine

/-- The decoder selects RESET exactly for the keys with bit 10 set, whatever the other bits and the registers are. Its
execution completes from every state with every register of R20 at its reset value 0 and no event, and leaves the
queue, the budget lines and the step number alone. (R172.) -/
def Obligations.ResetRowRestoresEveryRegister : Prop :=
  (∀ (c : GuardCtx) (k : Key),
    (∃ st clr valid data, decode c k = .ok (.reset st clr valid data)) ↔ k &&& 0x0400#14 = 0x0400#14) ∧
  ∀ (st : BitVec 3) (clr valid : Bool) (data : Byte) (s : State),
    exec (.reset st clr valid data) s =
      .next { s with
        regs := {
            st := 0#3, win := 0#32, scanCnt := 0#16, segLen := 0x00#8, segType := 0x00#8, payload := Payload.zero,
            idx := 0#6, cntSeg := 0#16, cntFraming := 0#16, cntChecksum := 0#16, cntTimeout := 0#16 },
        event := .none }

/-- The decoder selects CLEAR exactly for the keys with K & 0x0600 = 0x0200, in any state. Its execution completes
from every state with every ParserState register at 0, the four counters kept, no event. (R171.) -/
def Obligations.ClearRowResetsTheParserAndKeepsTheCounters : Prop :=
  (∀ (c : GuardCtx) (k : Key),
    (∃ st valid data, decode c k = .ok (.clear st valid data)) ↔ k &&& 0x0600#14 = 0x0200#14) ∧
  ∀ (st : BitVec 3) (valid : Bool) (data : Byte) (s : State),
    exec (.clear st valid data) s =
      .next { s with
        regs := { s.regs with
            st := 0#3, win := 0#32, scanCnt := 0#16, segLen := 0x00#8, segType := 0x00#8, payload := Payload.zero,
            idx := 0#6 },
        event := .none }

/-- The decoder selects ST_RECOVER exactly for the keys with K & 0x0600 = 0 and a state tag of 5 or more, whatever
valid is. Its execution completes from every state with every ParserState register at 0, the counters kept, no event.
(R173.) -/
def Obligations.RecoverRowResetsTheParser : Prop :=
  (∀ (c : GuardCtx) (k : Key),
    (∃ st valid data, decode c k = .ok (.stRecover st valid data)) ↔
      k &&& 0x0600#14 = 0x0000#14 ∧ 5 ≤ (k.extractLsb' 11 3).toNat) ∧
  ∀ (st : BitVec 3) (valid : Bool) (data : Byte) (s : State),
    exec (.stRecover st valid data) s =
      .next { s with
        regs := { s.regs with
            st := 0#3, win := 0#32, scanCnt := 0#16, segLen := 0x00#8, segType := 0x00#8, payload := Payload.zero,
            idx := 0#6 },
        event := .none }

/-- The decoder selects IDLE exactly for the keys with K & 0x0700 = 0 and a state tag of 4 or less. Its execution
completes from every state with every register as it was and no event. (R170.) -/
def Obligations.IdleRowKeepsEveryRegister : Prop :=
  (∀ (c : GuardCtx) (k : Key),
    (∃ st data, decode c k = .ok (.idle st data)) ↔
      k &&& 0x0700#14 = 0x0000#14 ∧ (k.extractLsb' 11 3).toNat ≤ 4) ∧
  ∀ (st : BitVec 3) (data : Byte) (s : State), exec (.idle st data) s = .next { s with event := .none }

/-- The decoder selects SYNC_MATCH exactly for a byte step in AwaitSync whose byte makes the window 0x01020304,
whatever the budget. Its execution completes from every state with st = 1, win = 0, scan_cnt = 0, every other register
kept, no event. (R101.) -/
def Obligations.SyncMatchRowEntersAwaitLength : Prop :=
  (∀ (c : GuardCtx) (k : Key) (data : Byte),
    decode c k = .ok (.syncMatch data) ↔
      k &&& 0x3F00#14 = 0x0100#14 ∧ data = k.extractLsb' 0 8 ∧ windowAfter c.win data = 0x01020304#32) ∧
  ∀ (data : Byte) (s : State),
    exec (.syncMatch data) s =
      .next { s with
        regs := { s.regs with st := 1#3, win := 0#32, scanCnt := 0#16 },
        event := .none }

/-- The decoder selects SYNC_SHIFT exactly for a byte step in AwaitSync that neither completes the marker nor exhausts
the budget. Its execution completes from every state with win = w, scan_cnt = c, every other register (st too) kept,
no event. (R102.) -/
def Obligations.SyncShiftRowShiftsTheWindow : Prop :=
  (∀ (c : GuardCtx) (k : Key) (data : Byte),
    decode c k = .ok (.syncShift data) ↔
      k &&& 0x3F00#14 = 0x0100#14 ∧ data = k.extractLsb' 0 8 ∧ windowAfter c.win data ≠ 0x01020304#32 ∧
        budgetSpent c.syncBudget c.scanCnt = false) ∧
  ∀ (data : Byte) (s : State),
    exec (.syncShift data) s =
      .next { s with
        regs := { s.regs with win := windowAfter s.regs.win data, scanCnt := scanAfter s.regs.scanCnt },
        event := .none }

/-- The decoder selects SYNC_TIMEOUT exactly for a byte step in AwaitSync that does not complete the marker and
exhausts the budget. Its execution completes from every state with win = w, scan_cnt = 0, cnt_timeout + 1 mod 2^16,
every other register kept, and raises SyncTimeout with the scan count reached. (R103.) -/
def Obligations.SyncTimeoutRowCountsAndKeepsTheWindow : Prop :=
  (∀ (c : GuardCtx) (k : Key) (data : Byte),
    decode c k = .ok (.syncTimeout data) ↔
      k &&& 0x3F00#14 = 0x0100#14 ∧ data = k.extractLsb' 0 8 ∧ windowAfter c.win data ≠ 0x01020304#32 ∧
        budgetSpent c.syncBudget c.scanCnt = true) ∧
  ∀ (data : Byte) (s : State),
    exec (.syncTimeout data) s =
      .next { s with
        regs := { s.regs with
            win := windowAfter s.regs.win data, scanCnt := 0#16, cntTimeout := s.regs.cntTimeout + 1#16 },
        event := .syncTimeout (scanAfter s.regs.scanCnt) }

/-- The decoder selects LEN_ACCEPT exactly for a byte step in AwaitLength with a byte of at most 32. Its execution
completes from every state with seg_len = data, st = 2, every other register kept, no event. (R121.) -/
def Obligations.LengthAcceptRowStoresTheLength : Prop :=
  (∀ (c : GuardCtx) (k : Key) (data : Byte),
    decode c k = .ok (.lenAccept data) ↔
      k &&& 0x3F00#14 = 0x0900#14 ∧ data = k.extractLsb' 0 8 ∧ data.toNat ≤ 32) ∧
  ∀ (data : Byte) (s : State),
    exec (.lenAccept data) s =
      .next { s with
        regs := { s.regs with segLen := data, st := 2#3 },
        event := .none }

/-- The decoder selects LEN_REJECT exactly for a byte step in AwaitLength with a byte above 32. Its execution
completes from every state with every ParserState register at 0, cnt_framing + 1 mod 2^16, the other counters kept,
and raises FramingError with the rejected byte. (R122.) -/
def Obligations.LengthRejectRowAbortsWithFramingError : Prop :=
  (∀ (c : GuardCtx) (k : Key) (data : Byte),
    decode c k = .ok (.lenReject data) ↔
      k &&& 0x3F00#14 = 0x0900#14 ∧ data = k.extractLsb' 0 8 ∧ 32 < data.toNat) ∧
  ∀ (data : Byte) (s : State),
    exec (.lenReject data) s =
      .next { s with
        regs := { s.regs with
            st := 0#3, win := 0#32, scanCnt := 0#16, segLen := 0x00#8, segType := 0x00#8, payload := Payload.zero,
            idx := 0#6, cntFraming := s.regs.cntFraming + 1#16 },
        event := .framingError data }

/-- The decoder selects TYPE_DATA exactly for a byte step in AwaitType with seg_len not 0, whatever the byte. Its
execution completes from every state with seg_type = data, idx = 0, st = 3, every other register kept, no event.
(R123.) -/
def Obligations.TypeDataRowEntersAwaitData : Prop :=
  (∀ (c : GuardCtx) (k : Key) (data : Byte),
    decode c k = .ok (.typeData data) ↔
      k &&& 0x3F00#14 = 0x1100#14 ∧ data = k.extractLsb' 0 8 ∧ c.segLen ≠ 0x00#8) ∧
  ∀ (data : Byte) (s : State),
    exec (.typeData data) s =
      .next { s with
        regs := { s.regs with segType := data, idx := 0#6, st := 3#3 },
        event := .none }

/-- The decoder selects TYPE_NODATA exactly for a byte step in AwaitType with seg_len 0, whatever the byte. Its
execution completes from every state with seg_type = data, idx = 0, st = 4, every other register kept, no event.
(R124.) -/
def Obligations.TypeNoDataRowSkipsAwaitData : Prop :=
  (∀ (c : GuardCtx) (k : Key) (data : Byte),
    decode c k = .ok (.typeNoData data) ↔
      k &&& 0x3F00#14 = 0x1100#14 ∧ data = k.extractLsb' 0 8 ∧ c.segLen = 0x00#8) ∧
  ∀ (data : Byte) (s : State),
    exec (.typeNoData data) s =
      .next { s with
        regs := { s.regs with segType := data, idx := 0#6, st := 4#3 },
        event := .none }

/-- The decoder selects DATA_NEXT exactly for a byte step in AwaitData with idx + 1 < seg_len, whatever the byte. From
every state whose idx is an entry of the register file its execution completes with payload[idx] = data, idx + 1,
every other entry and register (st too) kept, no event. (R125.) -/
def Obligations.DataNextRowStoresTheByteAtIdx : Prop :=
  (∀ (c : GuardCtx) (k : Key) (data : Byte),
    decode c k = .ok (.dataNext data) ↔
      k &&& 0x3F00#14 = 0x1900#14 ∧ data = k.extractLsb' 0 8 ∧ c.idx.toNat + 1 < c.segLen.toNat) ∧
  ∀ (data : Byte) (s : State) (h : s.regs.idx.toNat < 32),
    exec (.dataNext data) s =
      .next { s with
        regs := { s.regs with payload := s.regs.payload.set s.regs.idx.toNat data h, idx := s.regs.idx + 1#6 },
        event := .none }

/-- The decoder selects DATA_LAST exactly for a byte step in AwaitData with idx + 1 = seg_len, whatever the byte. From
every state whose idx is an entry of the register file its execution completes with payload[idx] = data, idx + 1, st =
4, every other entry and register kept, no event. (R126.) -/
def Obligations.DataLastRowEntersAwaitChecksum : Prop :=
  (∀ (c : GuardCtx) (k : Key) (data : Byte),
    decode c k = .ok (.dataLast data) ↔
      k &&& 0x3F00#14 = 0x1900#14 ∧ data = k.extractLsb' 0 8 ∧ c.idx.toNat + 1 = c.segLen.toNat) ∧
  ∀ (data : Byte) (s : State) (h : s.regs.idx.toNat < 32),
    exec (.dataLast data) s =
      .next { s with
        regs := { s.regs with payload := s.regs.payload.set s.regs.idx.toNat data h, idx := s.regs.idx + 1#6, st := 4#3 },
        event := .none }

/-- The decoder selects CHK_PASS exactly for a byte step in AwaitChecksum whose byte equals the computed checksum. Its
execution completes from every state with every ParserState register at 0, cnt_seg + 1 mod 2^16, the other counters
kept, and emits the Segment of seg_len, seg_type, all 32 payload entries and the received byte. (R152.) -/
def Obligations.ChecksumPassRowEmitsTheSegment : Prop :=
  (∀ (c : GuardCtx) (k : Key) (data : Byte),
    decode c k = .ok (.chkPass data) ↔
      k &&& 0x3F00#14 = 0x2100#14 ∧ data = k.extractLsb' 0 8 ∧ data = registerChecksum c.segLen c.segType c.payload) ∧
  ∀ (data : Byte) (s : State),
    exec (.chkPass data) s =
      .next { s with
        regs := { s.regs with
            st := 0#3, win := 0#32, scanCnt := 0#16, segLen := 0x00#8, segType := 0x00#8, payload := Payload.zero,
            idx := 0#6, cntSeg := s.regs.cntSeg + 1#16 },
        event := .segment { length := s.regs.segLen, type := s.regs.segType, payload := s.regs.payload, checksum := data } }

/-- The decoder selects CHK_FAIL exactly for a byte step in AwaitChecksum whose byte differs from the computed
checksum. Its execution completes from every state with every ParserState register at 0, cnt_checksum + 1 mod 2^16,
the other counters kept, and raises ChecksumMismatch with the received byte and the computed checksum. (R153.) -/
def Obligations.ChecksumFailRowDiscardsTheSegment : Prop :=
  (∀ (c : GuardCtx) (k : Key) (data : Byte),
    decode c k = .ok (.chkFail data) ↔
      k &&& 0x3F00#14 = 0x2100#14 ∧ data = k.extractLsb' 0 8 ∧ data ≠ registerChecksum c.segLen c.segType c.payload) ∧
  ∀ (data : Byte) (s : State),
    exec (.chkFail data) s =
      .next { s with
        regs := { s.regs with
            st := 0#3, win := 0#32, scanCnt := 0#16, segLen := 0x00#8, segType := 0x00#8, payload := Payload.zero,
            idx := 0#6, cntChecksum := s.regs.cntChecksum + 1#16 },
        event := .checksumMismatch data (registerChecksum s.regs.segLen s.regs.segType s.regs.payload) }

/-- When the queue is d :: q and the decode key of st and the word of d decodes, under the registers and the budget of
d, to i, then step is exec of i on the state whose queue is q, whose budget lines carry the budget of d and whose step
number is one more (the queue, the lines and the number are the model's own fields, log 1, 3 and 6). (00_scope.md
section 4 (step semantics); 30_encoding.md section 3 (decode key).) -/
def Obligations.StepRunsTheDecodedRow : Prop :=
  ∀ (s : State) (d : Drive) (q : List Drive) (i : Instr), s.inputs = d :: q →
    decode
        { win := s.regs.win, scanCnt := s.regs.scanCnt, segLen := s.regs.segLen, segType := s.regs.segType,
          payload := s.regs.payload, idx := s.regs.idx, syncBudget := d.budget }
        (s.regs.st ++ d.word) = .ok i →
    step s = exec i { s with inputs := q, syncBudget := d.budget, stepNo := s.stepNo + 1 }

/-- When the environment has queued nothing and the state tag is legal, a step completes, keeps every register and
raises no event. That an empty queue reads as an idle word is the model's reading of the rule on transport failure
(log 2). (60_exceptions.md section 3 (transport failure); 30_encoding.md section 2.) -/
def Obligations.EmptyQueueIsAnIdleStep : Prop :=
  ∀ s : State, s.inputs = [] → s.regs.st.toNat ≤ 4 →
    step s = .next { s with event := .none, stepNo := s.stepNo + 1 }

/-- From any state, reached or not, a step whose input word has rst = 1 completes with every register at its reset
value, no event and the byte of the word dropped; the queue moves on by one (log 1). (70_reset_and_hazards.md section
1 (state after a reset step); 43_control.md (RESET).) -/
def Obligations.ResetStepFromAnyState : Prop :=
  ∀ (s : State) (w : InputWord) (b : BitVec 16) (q : List Drive), w.getLsbD 10 = true →
    step { s with inputs := { word := w, budget := b } :: q } =
      .next { regs := {
            st := 0#3, win := 0#32, scanCnt := 0#16, segLen := 0x00#8, segType := 0x00#8, payload := Payload.zero,
            idx := 0#6, cntSeg := 0#16, cntFraming := 0#16, cntChecksum := 0#16, cntTimeout := 0#16 },
              inputs := q, syncBudget := b, event := .none, stepNo := s.stepNo + 1 }

/-- A step is refused exactly on a byte step in AwaitData with seg_len < idx + 1, where the model deduces that no row
applies (log 7), and faults exactly on a byte step in AwaitData that a row covers with idx of 32 or more, where the
register file has no entry (log 8). Both stops are the model's own, for states the register invariant rules out.
(30_encoding.md section 3 (no row covers); 41_fields.md (no write goes out of range).) -/
def Obligations.StepStopsOnlyOutsideTheInvariant : Prop :=
  ∀ s : State,
    (∀ r, step s = .refused r ↔
      r = .noRow ∧ s.regs.st = 3#3 ∧ wordKind s.drive.word = .byte ∧ s.regs.segLen.toNat < s.regs.idx.toNat + 1) ∧
    ∀ f, step s = .fault f ↔
      f = .payloadRange s.regs.idx ∧ s.regs.st = 3#3 ∧ wordKind s.drive.word = .byte ∧
        s.regs.idx.toNat + 1 ≤ s.regs.segLen.toNat ∧ 32 ≤ s.regs.idx.toNat

/-- The payload register file has 32 entries; executing DATA_NEXT or DATA_LAST with idx of 32 or more ends in the
fault payloadRange, the model's choice for a state that no run from reset reaches (log 8). (10_state.md section 5
(payload register file); 41_fields.md (properties of the parser).) -/
def Obligations.DataStoreOutsideTheFileFaults : Prop :=
  ∀ (data : Byte) (s : State), 32 ≤ s.regs.idx.toNat →
    exec (.dataNext data) s = .fault (.payloadRange s.regs.idx) ∧
      exec (.dataLast data) s = .fault (.payloadRange s.regs.idx)

/-- For every instruction, with every operand at every value, and every context in which its guard holds, decoding its
encoding gives the instruction back. An instruction is well-formed exactly when some context lets its guard hold, so
no well-formed instruction is shut out. (30_encoding.md section 3 (decode key, opcode map).) -/
def Obligations.DecodeOfEncodeIsTheInstruction : Prop :=
  (∀ (c : GuardCtx) (i : Instr), i.guardHolds c = true → decode c (encode i) = .ok i) ∧
  ∀ i : Instr, i.wellFormed = true ↔ ∃ c : GuardCtx, i.guardHolds c = true

/-- For every context and key the decoder answers instruction i if and only if the key under the row's mask is the
row's match, the row's guard holds, and the key is the encoding of i (its operands are the bits of the key).
(30_encoding.md section 3 (opcode map).) -/
def Obligations.OpcodeMapSelectsTheRow : Prop :=
  ∀ (c : GuardCtx) (k : Key) (i : Instr),
    decode c k = .ok i ↔ k &&& rowMask i = rowMatch i ∧ i.guardHolds c = true ∧ encode i = k

/-- Except for a byte step in AwaitData with seg_len < idx + 1, exactly one instruction meets mask, match and guard of
its row with the bits of the key as its operands; in that exception none does. The exception is deduced by the model
from the guards of the DATA rows (log 7, DEDUCED): the spec's own sentence names seg_len = 0 as the only combination
no row covers. That the rows are exclusive and exhaustive is an inference the spec marks as its own. (30_encoding.md
section 3 (the rows are mutually exclusive and together exhaustive).) -/
def Obligations.ExactlyOneRowApplies : Prop :=
  ∀ (c : GuardCtx) (k : Key),
    (¬ (keySt k = 3#3 ∧ wordKind (keyWord k) = .byte ∧ c.segLen.toNat < c.idx.toNat + 1) →
      ∃! i : Instr, k &&& rowMask i = rowMatch i ∧ i.guardHolds c = true ∧ encode i = k) ∧
    (keySt k = 3#3 ∧ wordKind (keyWord k) = .byte ∧ c.segLen.toNat < c.idx.toNat + 1 →
      ∀ i : Instr, ¬ (k &&& rowMask i = rowMatch i ∧ i.guardHolds c = true ∧ encode i = k))

/-- With win = 0x00010203, seg_len = 3, idx = 2: byte 04 in AwaitSync is SYNC_MATCH, byte 20 in AwaitLength is
LEN_ACCEPT and 21 is LEN_REJECT, the byte in AwaitData is DATA_LAST, word 0x301 is CLEAR, 0x7FF is RESET, 0x0AB is
IDLE, and a byte under state tag 6 is ST_RECOVER. (30_encoding.md section 3 (opcode map); 95_test_vectors.md V-S2,
V-C4, V-C6.) -/
def Obligations.SpecWordsDecodeToTheirRows : Prop :=
  let c : GuardCtx :=
    { win := 0x00010203#32, scanCnt := 3#16, segLen := 0x03#8, segType := 0x10#8, payload := Payload.zero, idx := 2#6,
      syncBudget := 0#16 }
  decode c 0b00000100000100#14 = .ok (.syncMatch 0x04#8) ∧
  decode c 0b00100100100000#14 = .ok (.lenAccept 0x20#8) ∧
  decode c 0b00100100100001#14 = .ok (.lenReject 0x21#8) ∧
  decode c 0b01000100010000#14 = .ok (.typeData 0x10#8) ∧
  decode c 0b01100111001100#14 = .ok (.dataLast 0xCC#8) ∧
  decode c 0b10000100010011#14 = .ok (.chkPass 0x13#8) ∧
  decode c 0b01101100000001#14 = .ok (.clear 3#3 true 0x01#8) ∧
  decode c 0b01111111111111#14 = .ok (.reset 3#3 true true 0xFF#8) ∧
  decode c 0b01100010101011#14 = .ok (.idle 3#3 0xAB#8) ∧
  decode c 0b11000100000001#14 = .ok (.stRecover 6#3 true 0x01#8)

/-- The encoding of a frame with L data bytes, L at most 32, has 7 + L bytes, at least 7 and at most 39; after the 4
marker bytes 3 + L remain, from 3 to 35. (R71.) -/
def Obligations.FrameIsSevenPlusLengthBytes : Prop :=
  ∀ (type : Byte) (data : List Byte), data.length ≤ 32 →
    (encodeFrame type data).length = 7 + data.length ∧
      (7 ≤ (encodeFrame type data).length ∧ (encodeFrame type data).length ≤ 39) ∧
      ((encodeFrame type data).drop 4).length = 3 + data.length ∧
      3 ≤ ((encodeFrame type data).drop 4).length ∧ ((encodeFrame type data).drop 4).length ≤ 35

/-- No event and a Segment drive evt_info 0 with codes 0 and 1; SyncTimeout(c) drives code 2 and c; FramingError(b)
code 3 and the byte in bits 7:0; ChecksumMismatch(r, k) code 4 with r in bits 15:8 and k in bits 7:0. Every state's
evt_code is at most 4. (30_encoding.md section 4 (event output table).) -/
def Obligations.EventOutputsCarryCodeAndInfo : Prop :=
  (Event.none.code = 0#3 ∧ Event.none.info = 0x0000#16) ∧
  (∀ g, (Event.segment g).code = 1#3 ∧ (Event.segment g).info = 0x0000#16) ∧
  (∀ c, (Event.syncTimeout c).code = 2#3 ∧ (Event.syncTimeout c).info = c) ∧
  (∀ b, (Event.framingError b).code = 3#3 ∧ (Event.framingError b).info.extractLsb' 8 8 = 0x00#8 ∧
    (Event.framingError b).info.extractLsb' 0 8 = b) ∧
  (∀ r k, (Event.checksumMismatch r k).code = 4#3 ∧ (Event.checksumMismatch r k).info.extractLsb' 8 8 = r ∧
    (Event.checksumMismatch r k).info.extractLsb' 0 8 = k) ∧
  ∀ s : State, s.evtCode = s.event.code ∧ s.evtInfo = s.event.info ∧ s.evtCode.toNat ≤ 4

/-- In a state whose latest step emitted a Segment, seg_len_o, seg_type_o and seg_chk_o are the Segment's fields and
payload entry i stands at bits [8i+7 : 8i] of seg_payload_o for every i from 0 to 31. Nothing is said of the bus in
other steps, where it is free (log 5). (30_encoding.md section 4 (segment bus).) -/
def Obligations.SegmentBusCarriesTheSegment : Prop :=
  ∀ (s : State) (g : Segment), s.event = .segment g →
    s.segLenO = g.length ∧ s.segTypeO = g.type ∧ s.segChkO = g.checksum ∧
      ∀ i : Fin 32, s.segPayloadO.extractLsb' (8 * i.val) 8 = g.payload[i]

/-- As numbers, the window after a byte is (win * 256 + data) mod 2^32, the scan count after it is min(scan_cnt + 1,
0xFFFF), and the timeout test holds exactly when the budget is not 0 and the count reaches it. (40_sync.md (values
shared by the three rules).) -/
def Obligations.DetectorComputesWindowCountAndTimeout : Prop :=
  ∀ (win : BitVec 32) (scanCnt budget : BitVec 16) (data : Byte),
    (windowAfter win data).toNat = (win.toNat * 256 + data.toNat) % 2 ^ 32 ∧
      (scanAfter scanCnt).toNat = min (scanCnt.toNat + 1) 0xFFFF ∧
      (budgetSpent budget scanCnt = true ↔ budget.toNat ≠ 0 ∧ budget.toNat ≤ min (scanCnt.toNat + 1) 0xFFFF)

/-- For L at most 32 the computed checksum is the sum of LENGTH, TYPE and the payload entries below L, modulo 256;
entries at or above L do not count. Where those entries are 0x00, summing all 32 entries gives the same value. (R150;
R151.) -/
def Obligations.ChecksumIsTheByteSum : Prop :=
  ∀ (len type : Byte) (payload : Payload), len.toNat ≤ 32 →
    (registerChecksum len type payload).toNat =
        (len.toNat + type.toNat + ∑ i : Fin 32, if i.val < len.toNat then payload[i].toNat else 0) % 256 ∧
      ((∀ i : Fin 32, len.toNat ≤ i.val → payload[i] = 0x00#8) →
        (registerChecksum len type payload).toNat =
          (len.toNat + type.toNat + ∑ i : Fin 32, payload[i].toNat) % 256)

/-- When executing any row answers a next state, every register that the row's rule does not list under registers
written keeps its value, and so do the queue, the budget lines and the step number. A payload entry other than entry
idx is kept by DATA_NEXT and DATA_LAST. (10_state.md section 1 (written by); 40_sync.md to 43_control.md (registers
written).) -/
def Obligations.RowsWriteOnlyTheirRegisters : Prop :=
  ∀ (i : Instr) (s t : State), exec i s = .next t →
    (t.inputs = s.inputs ∧ t.syncBudget = s.syncBudget ∧ t.stepNo = s.stepNo) ∧
    (RegName.st ∉ writtenBy i → t.regs.st = s.regs.st) ∧
    (RegName.win ∉ writtenBy i → t.regs.win = s.regs.win) ∧
    (RegName.scanCnt ∉ writtenBy i → t.regs.scanCnt = s.regs.scanCnt) ∧
    (RegName.segLen ∉ writtenBy i → t.regs.segLen = s.regs.segLen) ∧
    (RegName.segType ∉ writtenBy i → t.regs.segType = s.regs.segType) ∧
    (RegName.payload ∉ writtenBy i → t.regs.payload = s.regs.payload) ∧
    (RegName.idx ∉ writtenBy i → t.regs.idx = s.regs.idx) ∧
    (RegName.cntSeg ∉ writtenBy i → t.regs.cntSeg = s.regs.cntSeg) ∧
    (RegName.cntFraming ∉ writtenBy i → t.regs.cntFraming = s.regs.cntFraming) ∧
    (RegName.cntChecksum ∉ writtenBy i → t.regs.cntChecksum = s.regs.cntChecksum) ∧
    (RegName.cntTimeout ∉ writtenBy i → t.regs.cntTimeout = s.regs.cntTimeout) ∧
    ∀ data, i = .dataNext data ∨ i = .dataLast data →
      ∀ j : Fin 32, j.val ≠ s.regs.idx.toNat → t.regs.payload[j] = s.regs.payload[j]

/-- When a step answers a next state, it raises a Segment exactly on a byte step in AwaitChecksum whose byte is the
computed checksum; SyncTimeout exactly on a byte step in AwaitSync without a match and with the budget spent;
FramingError exactly on a byte step in AwaitLength with a byte above 32; ChecksumMismatch exactly on a byte step in
AwaitChecksum with another byte; each with the recorded values of its rule. (60_exceptions.md sections 1 and 2
(causes, at most one event a step).) -/
def Obligations.EventsComeOnlyFromTheirCauses : Prop :=
  ∀ s t : State, step s = .next t →
    (∀ g, t.event = .segment g ↔
      wordKind s.drive.word = .byte ∧ s.regs.st = 4#3 ∧ wordData s.drive.word = s.regs.chk ∧
        g = { length := s.regs.segLen, type := s.regs.segType, payload := s.regs.payload,
              checksum := wordData s.drive.word }) ∧
    (∀ c, t.event = .syncTimeout c ↔
      wordKind s.drive.word = .byte ∧ s.regs.st = 0#3 ∧
        windowAfter s.regs.win (wordData s.drive.word) ≠ 0x01020304#32 ∧
        budgetSpent s.drive.budget s.regs.scanCnt = true ∧ c = scanAfter s.regs.scanCnt) ∧
    (∀ b, t.event = .framingError b ↔
      wordKind s.drive.word = .byte ∧ s.regs.st = 1#3 ∧ 32 < (wordData s.drive.word).toNat ∧
        b = wordData s.drive.word) ∧
    ∀ r k, t.event = .checksumMismatch r k ↔
      wordKind s.drive.word = .byte ∧ s.regs.st = 4#3 ∧ wordData s.drive.word ≠ s.regs.chk ∧
        r = wordData s.drive.word ∧ k = s.regs.chk

/-- In every step that answers a next state each status counter is 0 after a reset step, one more modulo 2^16 after a
step that raises its event, and unchanged after any other step, a clear step included. (10_state.md section 2 (status
counters, counter arithmetic).) -/
def Obligations.CountersCountTheirEvents : Prop :=
  ∀ s t : State, step s = .next t →
    (wordRst s.drive.word = true →
      t.regs.cntSeg = 0#16 ∧ t.regs.cntFraming = 0#16 ∧ t.regs.cntChecksum = 0#16 ∧ t.regs.cntTimeout = 0#16) ∧
    (wordRst s.drive.word = false →
      t.regs.cntSeg = (match t.event with | .segment _ => s.regs.cntSeg + 1#16 | _ => s.regs.cntSeg) ∧
      t.regs.cntFraming = (match t.event with | .framingError _ => s.regs.cntFraming + 1#16 | _ => s.regs.cntFraming) ∧
      t.regs.cntChecksum =
        (match t.event with | .checksumMismatch _ _ => s.regs.cntChecksum + 1#16 | _ => s.regs.cntChecksum) ∧
      t.regs.cntTimeout = (match t.event with | .syncTimeout _ => s.regs.cntTimeout + 1#16 | _ => s.regs.cntTimeout))

/-- For every state the coming row is RESET if rst is 1; else CLEAR if clr is 1; else ST_RECOVER if the state tag is 5
or more; else a byte row (or none) if valid is 1; else IDLE. A byte that completes the marker in AwaitSync is
SYNC_MATCH whatever the budget. (60_exceptions.md section 2 (priority of the inputs within one step).) -/
def Obligations.InputPriority : Prop :=
  ∀ s : State, let w := s.drive.word
    (wordRst w = true → ∃ clr valid data, s.fetch = .ok (.reset s.regs.st clr valid data)) ∧
    (wordRst w = false → wordClr w = true → ∃ valid data, s.fetch = .ok (.clear s.regs.st valid data)) ∧
    (wordRst w = false → wordClr w = false → 5 ≤ s.regs.st.toNat →
      ∃ valid data, s.fetch = .ok (.stRecover s.regs.st valid data)) ∧
    (wordRst w = false → wordClr w = false → s.regs.st.toNat ≤ 4 → wordValid w = true →
      s.fetch = decodeByte (s.regs.guardCtx s.drive.budget) s.regs.st (wordData w)) ∧
    (wordRst w = false → wordClr w = false → s.regs.st.toNat ≤ 4 → wordValid w = false →
      s.fetch = .ok (.idle s.regs.st (wordData w))) ∧
    (wordKind w = .byte → s.regs.st = 0#3 → windowAfter s.regs.win (wordData w) = 0x01020304#32 →
      s.fetch = .ok (.syncMatch (wordData w)))

/-- Steps from one state on two words of the same kind, reset, clear or idle, have the same outcome whatever their
don't-care bits; with a reserved state tag and rst = clr = 0 the outcome does not depend on valid and data either. So
a byte presented with rst or clr is dropped. (30_encoding.md sections 2 and 3 (don't-care bits); 43_control.md
(ST_RECOVER).) -/
def Obligations.DontCareBitsChangeNothing : Prop :=
  (∀ (s : State) (w w' : InputWord) (b : BitVec 16) (q : List Drive),
    wordKind w = wordKind w' → wordKind w ≠ .byte →
    step (s.withInputs ({ word := w, budget := b } :: q)) = step (s.withInputs ({ word := w', budget := b } :: q))) ∧
  ∀ (s : State) (w w' : InputWord) (b : BitVec 16) (q : List Drive), 5 ≤ s.regs.st.toNat →
    wordRst w = false → wordClr w = false → wordRst w' = false → wordClr w' = false →
    step (s.withInputs ({ word := w, budget := b } :: q)) = step (s.withInputs ({ word := w', budget := b } :: q))

/-- For any step that is not a byte step in AwaitSync, replacing the sync_budget of that step by any other value gives
the same next state but for the model's record of the lines (log 3): same registers, same event. (10_state.md section
4 (sync_budget); 70_reset_and_hazards.md section 3 (changing sync_budget).) -/
def Obligations.BudgetIsReadOnlyInAwaitSyncByteSteps : Prop :=
  ∀ (s t : State) (w : InputWord) (b b' : BitVec 16) (q : List Drive),
    ¬ (s.regs.st = 0#3 ∧ wordKind w = .byte) →
    step (s.withInputs ({ word := w, budget := b } :: q)) = .next t →
    step (s.withInputs ({ word := w, budget := b' } :: q)) = .next { t with syncBudget := b' }

/-- State.reset meets the seven state-only items of the spec's invariant list: legal state tag, seg_len at most 32,
idx within seg_len, the AwaitSync and non-AwaitSync items, zero padding from idx on, idx 0 before DATA. (10_state.md
section 7 (invariants, marked derived).) -/
def Obligations.RegisterInvariantHoldsAtReset : Prop :=
  State.reset.regs.Inv

/-- For every state whose registers meet items 1 to 7 of the spec's invariant list, and every input queue, a step
answers a next state, never a fault or a refusal, whose registers meet the list again. That these invariants are kept
is an inference the spec marks as its own. (10_state.md section 7 (invariants, marked derived).) -/
def Obligations.EveryStepKeepsTheRegisterInvariant : Prop :=
  ∀ s : State, s.regs.Inv → ∃ t, step s = .next t ∧ t.regs.Inv

/-- With a state tag of 5 to 7 and any value in every other register, any input leads in one step to AwaitSync with
registers that meet the invariant and no event. (60_exceptions.md section 3 (no unrecoverable condition);
43_control.md (ST_RECOVER).) -/
def Obligations.ReservedStateTagRecoversInOneStep : Prop :=
  ∀ s : State, 5 ≤ s.regs.st.toNat →
    ∃ t, step s = .next t ∧ t.regs.st = 0#3 ∧ t.regs.Inv ∧ t.event = .none

/-- If the scan count is below B and the budget of the step is B, the scan count after the step is below B; and a step
that enters AwaitSync from another state leaves scan_cnt = 0, which is below every B that is not 0. (10_state.md
section 7 item 8 (marked derived).) -/
def Obligations.ScanCountStaysBelowAConstantBudget : Prop :=
  (∀ s t : State, s.drive.budget ≠ 0#16 → s.regs.scanCnt.toNat < s.drive.budget.toNat → step s = .next t →
    t.regs.scanCnt.toNat < s.drive.budget.toNat) ∧
  ∀ s t : State, step s = .next t → s.regs.st ≠ 0#3 → t.regs.st = 0#3 → t.regs.scanCnt = 0#16

/-- When a step from a state that meets the register invariant emits a Segment, its length is at most 32, its checksum
is the checksum of its length, type and first length payload bytes, and its payload entries at and beyond length are
0x00. (42_checksum.md (every emitted Segment, marked derived).) -/
def Obligations.EmittedSegmentsAreComplete : Prop :=
  ∀ (s t : State) (g : Segment), s.regs.Inv → step s = .next t → t.event = .segment g → g.Valid

/-- From any two states with the same step number, whatever their registers, the observation of a sequence of inputs
that begins with a reset step, its events with their step numbers and its last state, is the same. (10_state.md
section 7 (state before the first reset step); 70_reset_and_hazards.md sections 1 and 5.) -/
def Obligations.RunsDoNotDependOnTheStateBeforeReset : Prop :=
  ∀ (s s' : State) (ds : List Drive), isRun ds = true → s.stepNo = s'.stepNo →
    observeInputs s ds = observeInputs s' ds

/-- For any sequence of idle inputs, under any budgets, from a state with a legal state tag, the run completes with no
event and the registers as they were. (43_control.md (IDLE); 20_memory.md section 4 (idle steps).) -/
def Obligations.SuspensionChangesNothing : Prop :=
  ∀ (s : State) (ds : List Drive), s.regs.st.toNat ≤ 4 → (∀ d ∈ ds, wordKind d.word = .idle) →
    ∃ t, observeInputs s ds = .next ([], t) ∧ t.regs = s.regs

/-- From a state that meets the register invariant, two sequences without clear and reset steps, under one constant
budget, that carry the same bytes in the same order, both complete with the same events in the same order and the same
registers. Only step numbers may differ. (43_control.md (chunking invariance, marked derived).) -/
def Obligations.ChunkingInvariance : Prop :=
  ∀ (s : State) (b : BitVec 16) (ds ds' : List Drive), s.regs.Inv →
    (∀ d ∈ ds, d.quiet ∧ d.budget = b) → (∀ d ∈ ds', d.quiet ∧ d.budget = b) → streamBytes ds = streamBytes ds' →
    ∃ es t es' t', observeInputs s ds = .next (es, t) ∧ observeInputs s ds' = .next (es', t') ∧
      es.map Prod.snd = es'.map Prod.snd ∧ t.regs = t'.regs

/-- From a state at an entry into AwaitSync, for inputs without clear and reset steps whose bytes hold no complete
marker, under any budgets, the run stays in AwaitSync and byte j of win is the j-th newest byte, or 0x00 where there
is none; timeouts do not change it. (40_sync.md (properties of the detector, marked derived).) -/
def Obligations.WindowHoldsTheLastFourBytes : Prop :=
  ∀ (s : State) (ds : List Drive), s.regs.Fresh → (∀ d ∈ ds, d.quiet) → ¬ holdsMarker (streamBytes ds) →
    ∃ es t, observeInputs s ds = .next (es, t) ∧ t.regs.st = 0#3 ∧
      ∀ j : Fin 4, t.regs.win.extractLsb' (8 * j.val) 8 = (streamBytes ds).reverse.getD j.val 0x00#8

/-- From a state at an entry into AwaitSync: if the bytes so far hold no complete marker and the next byte completes
one, the step of that byte leads to AwaitLength with an empty window and scan count and raises no event, whatever the
budgets. (40_sync.md (first occurrence, marked derived).) -/
def Obligations.FirstMarkerOccurrenceIsMatched : Prop :=
  ∀ (s : State) (ds : List Drive) (d : Drive) (b : Byte), s.regs.Fresh → (∀ x ∈ ds, x.quiet) →
    wordKind d.word = .byte → wordData d.word = b →
    ¬ holdsMarker (streamBytes ds) → holdsMarker (streamBytes ds ++ [b]) →
    ∃ es t, observeInputs s (ds ++ [d]) = .next (es, t) ∧
      t.regs.st = 1#3 ∧ t.regs.win = 0#32 ∧ t.regs.scanCnt = 0#16 ∧ t.event = .none

/-- From a state at an entry into AwaitSync, on bytes that hold no complete marker under a constant budget B that is
not 0, the events are exactly SyncTimeout with count B at the steps of the B-th, 2B-th, ... byte, cnt_timeout grows by
their number modulo 2^16, and the run stays in AwaitSync. (40_sync.md (timeout cadence, marked derived).) -/
def Obligations.TimeoutCadence : Prop :=
  ∀ (s : State) (b : BitVec 16) (bs : List Byte), s.regs.Fresh → b ≠ 0#16 → ¬ holdsMarker bs →
    ∃ t, observeInputs s (byteInputs b bs) =
        .next ((List.range (bs.length / b.toNat)).map fun j => (s.stepNo + (j + 1) * b.toNat, .syncTimeout b), t) ∧
      t.regs.st = 0#3 ∧ t.regs.cntTimeout = s.regs.cntTimeout + BitVec.ofNat 16 (bs.length / b.toNat)

/-- From AwaitLength with the invariant, on a LENGTH byte of at most 32 followed by any L + 2 bytes, the receiver is
outside AwaitSync and silent before the (3 + L)-th byte, and that byte brings it back to AwaitSync with exactly one
event, a Segment or a ChecksumMismatch. (41_fields.md (byte count per frame, marked derived).) -/
def Obligations.FrameTakesThreePlusLengthBytes : Prop :=
  ∀ (s : State) (len : Byte) (rest : List Byte) (ds : List Drive), s.regs.Inv → s.regs.st = 1#3 →
    len.toNat ≤ 32 → rest.length = len.toNat + 2 → ds.map Drive.word = (len :: rest).map byteWord →
    (∀ n, n < 3 + len.toNat → ∃ t, observe n (s.withInputs ds) = .next ([], t) ∧ t.regs.st ≠ 0#3) ∧
    ∃ e t, observeInputs s ds = .next ([(s.stepNo + (3 + len.toNat), e)], t) ∧ t.regs.st = 0#3 ∧
      ((∃ g, e = .segment g) ∨ ∃ r k, e = .checksumMismatch r k)

/-- For every type and every data of at most 32 bytes, presenting the encoded frame from a state at an entry into
AwaitSync with no budget raises exactly one event, at the last byte: the Segment with that length, type, data in
arrival order, zero padding and checksum. The registers end as they began but for cnt_seg, one more. (30_encoding.md
section 1 (EncodeFrame); 42_checksum.md (every emitted Segment); 95_test_vectors.md V-RT.) -/
def Obligations.EncodedFrameRoundTrip : Prop :=
  ∀ (s : State) (type : Byte) (data : List Byte), s.regs.Fresh → data.length ≤ 32 →
    ∃ t, observeInputs s (byteInputs 0#16 (encodeFrame type data)) =
        .next ([(s.stepNo + (7 + data.length), .segment (segmentOf type data))], t) ∧
      t.regs = { s.regs with cntSeg := s.regs.cntSeg + 1#16 }

/-- From a state at an entry into AwaitSync, for inputs without clear and reset steps, with idle steps anywhere and
any budgets, whose bytes are garbage that holds no complete marker followed by a well-formed frame, exactly one
Segment is emitted, the frame's own; every other event is a SyncTimeout; the receiver ends in AwaitSync and no error
but timeouts is counted. (90_conflicts.md C4 (restated resync property); 95_test_vectors.md V-P1.) -/
def Obligations.ResyncAfterGarbageDeliversTheFrame : Prop :=
  ∀ (s : State) (garbage : List Byte) (type : Byte) (data : List Byte) (ds : List Drive), s.regs.Fresh →
    ¬ holdsMarker garbage → data.length ≤ 32 → (∀ d ∈ ds, d.quiet) →
    streamBytes ds = garbage ++ encodeFrame type data →
    ∃ es t, observeInputs s ds = .next (es, t) ∧
      (es.map Prod.snd).filter Event.isSegment = [.segment (segmentOf type data)] ∧
      (∀ e ∈ es, e.2 = .segment (segmentOf type data) ∨ ∃ c, e.2 = .syncTimeout c) ∧
      t.regs.st = 0#3 ∧ t.regs.cntSeg = s.regs.cntSeg + 1#16 ∧ t.regs.cntFraming = s.regs.cntFraming ∧
      t.regs.cntChecksum = s.regs.cntChecksum

/-- For a well-formed frame with one bit flipped in the TYPE byte, a DATA byte or the CHECKSUM byte, presented from a
state at an entry into AwaitSync with no budget, the only event is ChecksumMismatch at the frame's last byte, with
unequal received and computed values; the registers end as they began but for cnt_checksum, one more, so the next
frame is found. (42_checksum.md (single-bit errors are detected, marked derived); 95_test_vectors.md V-K3.) -/
def Obligations.SingleBitErrorIsDetected : Prop :=
  ∀ (s : State) (type : Byte) (data : List Byte) (p j : Nat), s.regs.Fresh → data.length ≤ 32 →
    5 ≤ p → p < 7 + data.length → j < 8 →
    ∃ received computed t,
      observeInputs s (byteInputs 0#16 ((encodeFrame type data).modify p (· ^^^ BitVec.twoPow 8 j))) =
        .next ([(s.stepNo + (7 + data.length), .checksumMismatch received computed)], t) ∧
      received ≠ computed ∧ t.regs = { s.regs with cntChecksum := s.regs.cntChecksum + 1#16 }

/-- From the state after a step that emitted a Segment, any inputs, clear and reset steps included, that carry fewer
than seven byte steps complete without another Segment. (70_reset_and_hazards.md section 3 (two Segment events).) -/
def Obligations.SegmentsAreSevenByteStepsApart : Prop :=
  ∀ (s t : State) (g : Segment) (ds : List Drive), step s = .next t → t.event = .segment g →
    (streamBytes ds).length < 7 →
    ∃ es u, observeInputs t ds = .next (es, u) ∧ ∀ e ∈ es, e.2.isSegment = false

/-- From every state that meets the register invariant and on every input, the design of the two equivalent
representations, with a 2-bit progress counter in place of win and a running 8-bit sum in place of the checksum over
the register file, raises the same event in the same step and ends in the state that stands for the SFR's next state.
(40_sync.md (equivalent representation, marked derived); 42_checksum.md (incremental form, marked derived).) -/
def Obligations.CompactReceiverSimulatesEveryStep : Prop :=
  ∀ s : State, s.regs.Inv → ∃ t, step s = .next t ∧
    Compact.step s.drive.budget (Compact.ofRegs s.regs) s.drive.word = (Compact.ofRegs t.regs, t.event)

/-- The stream SYNC, IDLE under no BUDGET stands for the five input words of the spec's example (marked derived
there), each with budget 0. BUDGET 3, RST, CLR stands for a reset and a clear step with budget 3: for every v a BUDGET
v statement takes no step and what follows it is read under v, whatever the budget before; and the inputs of a stream
without a BUDGET statement all carry the budget it is read under. The spec requires at most 32 data bytes of a FRAME;
that a stream with a longer one anywhere in it stands for nothing is the model's reading of that (log 19, DESIGN
CHOICE). (30_encoding.md section 6 (stream notation).) -/
def Obligations.StreamNotationGivesTheInputWords : Prop :=
  streamInputs 0#16 [.sync, .idle 1] =
      some [{ word := 0x101#11, budget := 0#16 }, { word := 0x102#11, budget := 0#16 },
        { word := 0x103#11, budget := 0#16 }, { word := 0x104#11, budget := 0#16 },
        { word := 0x000#11, budget := 0#16 }] ∧
    streamInputs 0#16 [.budget 3#16, .rst, .clr] =
      some [{ word := 0x400#11, budget := 3#16 }, { word := 0x200#11, budget := 3#16 }] ∧
    (∀ (b v : BitVec 16) (xs : List Stmt), streamInputs b (.budget v :: xs) = streamInputs v xs) ∧
    (∀ (b : BitVec 16) (xs : List Stmt) (ds : List Drive), (∀ v, Stmt.budget v ∉ xs) → streamInputs b xs = some ds →
      ∀ d ∈ ds, d.budget = b) ∧
    ∀ (pre : List Stmt) (type : Byte) (data : List Byte) (rest : List Stmt) (b : BitVec 16), 32 < data.length →
      streamInputs b (pre ++ .frame type data :: rest) = none
end

