-- ==== Sys2Proof/Laws/Flags.lean ====
section
/-! SUPPORT. The arithmetic of the guards (40_sync.md R100), of the counters (10_state.md R29) and of the checksum
(42_checksum.md R150). -/

namespace Sys2Proof

theorem scanAfter_toNat (c : BitVec 16) : (scanAfter c).toNat = min (c.toNat + 1) 0xFFFF := by
  simp only [scanAfter, BitVec.toNat_ofNat]
  omega

theorem budgetSpent_iff (b c : BitVec 16) : budgetSpent b c = true ↔ b ≠ 0#16 ∧ b.toNat ≤ (scanAfter c).toNat := by
  simp [budgetSpent]

theorem budgetSpent_eq_false_iff (b c : BitVec 16) :
    budgetSpent b c = false ↔ b = 0#16 ∨ (scanAfter c).toNat < b.toNat := by
  rw [← Bool.not_eq_true, budgetSpent_iff]
  by_cases h : b = 0#16 <;> simp [h]

@[simp] theorem budgetSpent_zero (c : BitVec 16) : budgetSpent 0#16 c = false := by
  simp [budgetSpent]

theorem bumpCounter_eq_add (c : BitVec 16) : bumpCounter c = c + 1#16 := by
  apply BitVec.eq_of_toNat_eq
  simp [bumpCounter, BitVec.toNat_add, Config.cntW]

theorem windowAfter_toNat (win : BitVec 32) (d : Byte) :
    (windowAfter win d).toNat = win.toNat % 2 ^ 24 * 256 + d.toNat := by
  have hsh : (win <<< 8).toNat = win.toNat % 2 ^ 24 * 256 := by
    simp only [BitVec.toNat_shiftLeft, Nat.shiftLeft_eq]
    omega
  have hd : (d.setWidth 32).toNat = d.toNat := by
    have := d.isLt
    simp only [BitVec.toNat_setWidth]
    omega
  rw [windowAfter, BitVec.toNat_or, hsh, hd]
  have := Nat.shiftLeft_add_eq_or_of_lt (i := 8) d.isLt (win.toNat % 2 ^ 24)
  rw [Nat.shiftLeft_eq] at this
  exact this.symm

theorem markerFound_iff (win : BitVec 32) (d : Byte) :
    markerFound win d = true ↔ windowAfter win d = Config.markerWord := by
  simp [markerFound]

theorem markerFound_eq_false_iff (win : BitVec 32) (d : Byte) :
    markerFound win d = false ↔ windowAfter win d ≠ Config.markerWord := by
  simp [markerFound]

/-- The marker is completed exactly by `04` after the window's newest three bytes `01 02 03` (20_memory.md R52). -/
theorem windowAfter_eq_marker_iff (win : BitVec 32) (d : Byte) :
    windowAfter win d = Config.markerWord ↔ win.toNat % 2 ^ 24 = 0x010203 ∧ d = 0x04#8 := by
  rw [← BitVec.toNat_inj, ← BitVec.toNat_inj, windowAfter_toNat]
  have := d.isLt
  simp only [Config.markerWord, BitVec.toNat_ofNat]
  omega

theorem checksumFn_toNat (len type : Byte) (data : List Byte) :
    (checksumFn len type data).toNat = (len.toNat + type.toNat + (data.map BitVec.toNat).sum) % 256 := by
  simp [checksumFn]

/-- A further byte adds itself to the sum (42_checksum.md R155). -/
theorem checksumFn_append (len type : Byte) (data : List Byte) (b : Byte) :
    checksumFn len type (data ++ [b]) = checksumFn len type data + b := by
  apply BitVec.eq_of_toNat_eq
  rw [BitVec.toNat_add, checksumFn_toNat, checksumFn_toNat]
  simp only [List.map_append, List.map_cons, List.map_nil, List.sum_append, List.sum_cons, List.sum_nil]
  omega

theorem registerChecksum_of_le {len type : Byte} {p : Payload} (h : len.toNat ≤ 32) :
    registerChecksum len type p = checksumFn len type (p.toList.take len.toNat) := by
  simp [registerChecksum, h]

end Sys2Proof
end

