-- ==== Sys2Proof/Laws/Operands.lean ====
section
/-! SUPPORT. The fields of a packed input word and of a decode key read back as they were put in, and an input word is
its four fields (30_encoding.md R75, R77). -/

namespace Sys2Proof

section Fields

variable (rst clr valid : Bool) (data : Byte) (st : BitVec 3) (w : InputWord) (k : Key)

/-- Every bit of a packed input word. -/
theorem getLsbD_packWord (i : Nat) :
    (packWord rst clr valid data).getLsbD i =
      if i < 8 then data.getLsbD i else if i < 9 then (BitVec.ofBool valid).getLsbD (i - 8)
      else if i < 10 then (BitVec.ofBool clr).getLsbD (i - 9) else (BitVec.ofBool rst).getLsbD (i - 10) := by
  change (BitVec.ofBool rst ++ BitVec.ofBool clr ++ BitVec.ofBool valid ++ data : BitVec (1 + 1 + 1 + 8)).getLsbD i = _
  simp only [BitVec.getLsbD_append]
  split_ifs <;> first | rfl | omega

/-- Every bit of a decode key. -/
theorem getLsbD_keyOf (i : Nat) : (keyOf st w).getLsbD i = if i < 11 then w.getLsbD i else st.getLsbD (i - 11) := by
  change (st ++ w : BitVec (3 + 11)).getLsbD i = _
  exact BitVec.getLsbD_append

@[simp] theorem wordRst_packWord : wordRst (packWord rst clr valid data) = rst := by
  rw [wordRst, getLsbD_packWord]
  cases rst <;> rfl

@[simp] theorem wordClr_packWord : wordClr (packWord rst clr valid data) = clr := by
  rw [wordClr, getLsbD_packWord]
  cases clr <;> rfl

@[simp] theorem wordValid_packWord : wordValid (packWord rst clr valid data) = valid := by
  rw [wordValid, getLsbD_packWord]
  cases valid <;> rfl

@[simp] theorem wordData_packWord : wordData (packWord rst clr valid data) = data := by
  apply BitVec.eq_of_getLsbD_eq
  intro i hi
  rw [wordData, BitVec.getLsbD_extractLsb', Nat.zero_add, getLsbD_packWord]
  simp [hi]

theorem packWord_fields : packWord (wordRst w) (wordClr w) (wordValid w) (wordData w) = w := by
  apply BitVec.eq_of_getLsbD_eq
  intro i hi
  rw [getLsbD_packWord]
  interval_cases i <;> simp [wordRst, wordClr, wordValid, wordData]

@[simp] theorem keySt_keyOf : keySt (keyOf st w) = st := by
  apply BitVec.eq_of_getLsbD_eq
  intro i hi
  rw [keySt, BitVec.getLsbD_extractLsb', getLsbD_keyOf]
  simp [hi]

@[simp] theorem keyWord_keyOf : keyWord (keyOf st w) = w := by
  apply BitVec.eq_of_getLsbD_eq
  intro i hi
  rw [keyWord, BitVec.getLsbD_extractLsb', Nat.zero_add, getLsbD_keyOf]
  simp [hi]

theorem keyOf_fields : keyOf (keySt k) (keyWord k) = k := by
  apply BitVec.eq_of_getLsbD_eq
  intro i hi
  rw [getLsbD_keyOf, keySt, keyWord]
  interval_cases i <;> simp

/-- A key is determined by its state tag and its input word's fields. -/
theorem key_eq_iff (rst clr valid : Bool) (data : Byte) :
    k = keyOf st (packWord rst clr valid data) ↔
      keySt k = st ∧ wordRst (keyWord k) = rst ∧ wordClr (keyWord k) = clr ∧ wordValid (keyWord k) = valid ∧
        wordData (keyWord k) = data := by
  constructor
  · rintro rfl
    simp
  · rintro ⟨rfl, rfl, rfl, rfl, rfl⟩
    rw [packWord_fields, keyOf_fields]

end Fields

section Kinds

variable (b : Byte) (w : InputWord)

@[simp] theorem wordRst_byteWord : wordRst (byteWord b) = false := wordRst_packWord ..
@[simp] theorem wordClr_byteWord : wordClr (byteWord b) = false := wordClr_packWord ..
@[simp] theorem wordValid_byteWord : wordValid (byteWord b) = true := wordValid_packWord ..
@[simp] theorem wordData_byteWord : wordData (byteWord b) = b := wordData_packWord ..
@[simp] theorem wordRst_idleWord : wordRst idleWord = false := wordRst_packWord ..
@[simp] theorem wordClr_idleWord : wordClr idleWord = false := wordClr_packWord ..
@[simp] theorem wordValid_idleWord : wordValid idleWord = false := wordValid_packWord ..

@[simp] theorem wordKind_byteWord : wordKind (byteWord b) = .byte := by simp [wordKind]
@[simp] theorem wordKind_idleWord : wordKind idleWord = .idle := by simp [wordKind]
@[simp] theorem wordByte_byteWord : wordByte (byteWord b) = some b := by simp [wordByte]
@[simp] theorem wordByte_idleWord : wordByte idleWord = none := by simp [wordByte]

/-- The word of a byte step is `0x100 | b` (00_scope.md R11, 30_encoding.md R83). -/
theorem wordKind_byte_iff : wordKind w = .byte ↔ w = byteWord (wordData w) := by
  constructor
  · intro h
    have hf : wordRst w = false ∧ wordClr w = false ∧ wordValid w = true := by
      cases h1 : wordRst w <;> cases h2 : wordClr w <;> cases h3 : wordValid w <;> simp [wordKind, h1, h2, h3] at h ⊢
    obtain ⟨h1, h2, h3⟩ := hf
    conv_lhs => rw [← packWord_fields w, h1, h2, h3]
    rfl
  · intro h
    rw [h]
    simp

end Kinds

end Sys2Proof
end

