-- ==== Sys2Proof/Laws/Masks.lean ====
section
/-! SUPPORT. What each mask and match of the opcode map says of a key's fields (30_encoding.md R77), once per row group. -/

namespace Sys2Proof

section Masks

variable (k M m : Key)

theorem key_and_eq_iff : k &&& M = m ↔ ∀ i : Fin 14, (k.getLsbD i.val && M.getLsbD i.val) = m.getLsbD i.val := by
  constructor
  · rintro rfl i
    simp
  · intro h
    apply BitVec.eq_of_getLsbD_eq
    intro i hi
    simpa using h ⟨i, hi⟩

theorem keySt_eq_iff (st : BitVec 3) : keySt k = st ↔ ∀ i : Fin 3, k.getLsbD (11 + i.val) = st.getLsbD i.val := by
  constructor
  · rintro rfl i
    simp [keySt]
  · intro h
    apply BitVec.eq_of_getLsbD_eq
    intro i hi
    simpa [keySt, hi] using h ⟨i, hi⟩

theorem wordRst_keyWord : wordRst (keyWord k) = k.getLsbD 10 := by simp [wordRst, keyWord]
theorem wordClr_keyWord : wordClr (keyWord k) = k.getLsbD 9 := by simp [wordClr, keyWord]
theorem wordValid_keyWord : wordValid (keyWord k) = k.getLsbD 8 := by simp [wordValid, keyWord]

theorem wordData_keyWord : wordData (keyWord k) = k.extractLsb' 0 8 := by
  apply BitVec.eq_of_getLsbD_eq
  intro i hi
  simp [wordData, keyWord, hi]

theorem wordKind_eq_byte_iff (w : InputWord) :
    wordKind w = .byte ↔ wordRst w = false ∧ wordClr w = false ∧ wordValid w = true := by
  cases h1 : wordRst w <;> cases h2 : wordClr w <;> cases h3 : wordValid w <;> simp [wordKind, h1, h2, h3]

theorem wordKind_eq_idle_iff (w : InputWord) :
    wordKind w = .idle ↔ wordRst w = false ∧ wordClr w = false ∧ wordValid w = false := by
  cases h1 : wordRst w <;> cases h2 : wordClr w <;> cases h3 : wordValid w <;> simp [wordKind, h1, h2, h3]

theorem wordKind_eq_clear_iff (w : InputWord) : wordKind w = .clear ↔ wordRst w = false ∧ wordClr w = true := by
  cases h1 : wordRst w <;> cases h2 : wordClr w <;> cases h3 : wordValid w <;> simp [wordKind, h1, h2, h3]

theorem wordKind_eq_reset_iff (w : InputWord) : wordKind w = .reset ↔ wordRst w = true := by
  cases h1 : wordRst w <;> cases h2 : wordClr w <;> cases h3 : wordValid w <;> simp [wordKind, h1, h2, h3]

theorem key_and_0400 : k &&& 0x0400#14 = 0x0400#14 ↔ wordRst (keyWord k) = true := by
  rw [key_and_eq_iff, wordRst_keyWord]
  simp [Fin.forall_fin_succ]

theorem key_and_0600_clear :
    k &&& 0x0600#14 = 0x0200#14 ↔ wordRst (keyWord k) = false ∧ wordClr (keyWord k) = true := by
  rw [key_and_eq_iff, wordRst_keyWord, wordClr_keyWord]
  simp [Fin.forall_fin_succ]
  tauto

theorem key_and_0600_zero :
    k &&& 0x0600#14 = 0x0000#14 ↔ wordRst (keyWord k) = false ∧ wordClr (keyWord k) = false := by
  rw [key_and_eq_iff, wordRst_keyWord, wordClr_keyWord]
  simp [Fin.forall_fin_succ]
  tauto

theorem key_and_0700 : k &&& 0x0700#14 = 0x0000#14 ↔ wordKind (keyWord k) = .idle := by
  rw [key_and_eq_iff, wordKind_eq_idle_iff, wordRst_keyWord, wordClr_keyWord, wordValid_keyWord]
  simp [Fin.forall_fin_succ]
  tauto

theorem key_and_3F00_sync : k &&& 0x3F00#14 = 0x0100#14 ↔ keySt k = 0#3 ∧ wordKind (keyWord k) = .byte := by
  rw [key_and_eq_iff, keySt_eq_iff, wordKind_eq_byte_iff, wordRst_keyWord, wordClr_keyWord, wordValid_keyWord]
  simp [Fin.forall_fin_succ]
  tauto

theorem key_and_3F00_length : k &&& 0x3F00#14 = 0x0900#14 ↔ keySt k = 1#3 ∧ wordKind (keyWord k) = .byte := by
  rw [key_and_eq_iff, keySt_eq_iff, wordKind_eq_byte_iff, wordRst_keyWord, wordClr_keyWord, wordValid_keyWord]
  simp [Fin.forall_fin_succ]
  tauto

theorem key_and_3F00_type : k &&& 0x3F00#14 = 0x1100#14 ↔ keySt k = 2#3 ∧ wordKind (keyWord k) = .byte := by
  rw [key_and_eq_iff, keySt_eq_iff, wordKind_eq_byte_iff, wordRst_keyWord, wordClr_keyWord, wordValid_keyWord]
  simp [Fin.forall_fin_succ]
  tauto

theorem key_and_3F00_data : k &&& 0x3F00#14 = 0x1900#14 ↔ keySt k = 3#3 ∧ wordKind (keyWord k) = .byte := by
  rw [key_and_eq_iff, keySt_eq_iff, wordKind_eq_byte_iff, wordRst_keyWord, wordClr_keyWord, wordValid_keyWord]
  simp [Fin.forall_fin_succ]
  tauto

theorem key_and_3F00_checksum : k &&& 0x3F00#14 = 0x2100#14 ↔ keySt k = 4#3 ∧ wordKind (keyWord k) = .byte := by
  rw [key_and_eq_iff, keySt_eq_iff, wordKind_eq_byte_iff, wordRst_keyWord, wordClr_keyWord, wordValid_keyWord]
  simp [Fin.forall_fin_succ]
  tauto

end Masks

end Sys2Proof
end

