-- ==== Sys2Proof/Laws/Decode.lean ====
section
/-! SUPPORT. What the decoder answers, kind of step by kind of step (60_exceptions.md R206), and everything it can answer. -/

namespace Sys2Proof

section Kinds

variable {c : GuardCtx} {k : Key} {i : Instr}

theorem decode_reset (h : wordKind (keyWord k) = .reset) :
    decode c k = .ok (.reset (keySt k) (wordClr (keyWord k)) (wordValid (keyWord k)) (wordData (keyWord k))) := by
  simp [decode, (wordKind_eq_reset_iff _).mp h]

theorem decode_clear (h : wordKind (keyWord k) = .clear) :
    decode c k = .ok (.clear (keySt k) (wordValid (keyWord k)) (wordData (keyWord k))) := by
  simp [decode, (wordKind_eq_clear_iff _).mp h]

theorem decode_stRecover (h1 : wordRst (keyWord k) = false) (h2 : wordClr (keyWord k) = false)
    (h : 5 ≤ (keySt k).toNat) :
    decode c k = .ok (.stRecover (keySt k) (wordValid (keyWord k)) (wordData (keyWord k))) := by
  simp [decode, h1, h2, h]

theorem decode_idle (h : wordKind (keyWord k) = .idle) (hs : (keySt k).toNat ≤ 4) :
    decode c k = .ok (.idle (keySt k) (wordData (keyWord k))) := by
  simp [decode, (wordKind_eq_idle_iff _).mp h, show ¬ 5 ≤ (keySt k).toNat by omega]

theorem decode_byte (h : wordKind (keyWord k) = .byte) (hs : (keySt k).toNat ≤ 4) :
    decode c k = decodeByte c (keySt k) (wordData (keyWord k)) := by
  simp [decode, (wordKind_eq_byte_iff _).mp h, show ¬ 5 ≤ (keySt k).toNat by omega]

/-- A legal state tag is one of the five (10_state.md R21). -/
theorem legalTag_cases {st : BitVec 3} (h : st.toNat ≤ 4) : st = 0#3 ∨ st = 1#3 ∨ st = 2#3 ∨ st = 3#3 ∨ st = 4#3 := by
  revert h
  revert st
  decide

@[simp] theorem decodeByte_zero (d : Byte) :
    decodeByte c 0#3 d = .ok (decodeSync c.win c.scanCnt c.syncBudget d) := rfl

@[simp] theorem decodeByte_one (d : Byte) : decodeByte c 1#3 d = .ok (decodeLength d) := rfl

@[simp] theorem decodeByte_two (d : Byte) : decodeByte c 2#3 d = .ok (decodeType c.segLen d) := rfl

@[simp] theorem decodeByte_three (d : Byte) : decodeByte c 3#3 d = decodeData c.idx c.segLen d := rfl

@[simp] theorem decodeByte_four (d : Byte) :
    decodeByte c 4#3 d = .ok (decodeChecksum (registerChecksum c.segLen c.segType c.payload) d) := rfl

/-- The three answers in AwaitSync, each with its guard (40_sync.md R100). -/
theorem decodeSync_cases (win : BitVec 32) (scanCnt budget : BitVec 16) (d : Byte) :
    (decodeSync win scanCnt budget d = .syncMatch d ∧ windowAfter win d = Config.markerWord) ∨
    (decodeSync win scanCnt budget d = .syncTimeout d ∧ windowAfter win d ≠ Config.markerWord ∧
      budgetSpent budget scanCnt = true) ∨
    (decodeSync win scanCnt budget d = .syncShift d ∧ windowAfter win d ≠ Config.markerWord ∧
      budgetSpent budget scanCnt = false) := by
  by_cases h : windowAfter win d = Config.markerWord
  · simp [decodeSync, markerFound, h]
  · cases h2 : budgetSpent budget scanCnt <;> simp [decodeSync, markerFound, h, h2]

/-- Everything the decoder can answer, by the kind of step and the state tag. -/
theorem decode_cases (c : GuardCtx) (k : Key) :
    (wordKind (keyWord k) = .reset ∧
      decode c k = .ok (.reset (keySt k) (wordClr (keyWord k)) (wordValid (keyWord k)) (wordData (keyWord k)))) ∨
    (wordKind (keyWord k) = .clear ∧
      decode c k = .ok (.clear (keySt k) (wordValid (keyWord k)) (wordData (keyWord k)))) ∨
    (wordRst (keyWord k) = false ∧ wordClr (keyWord k) = false ∧ 5 ≤ (keySt k).toNat ∧
      decode c k = .ok (.stRecover (keySt k) (wordValid (keyWord k)) (wordData (keyWord k)))) ∨
    (wordKind (keyWord k) = .idle ∧ (keySt k).toNat ≤ 4 ∧
      decode c k = .ok (.idle (keySt k) (wordData (keyWord k)))) ∨
    (wordKind (keyWord k) = .byte ∧ (keySt k).toNat ≤ 4 ∧
      decode c k = decodeByte c (keySt k) (wordData (keyWord k))) := by
  cases hk : wordKind (keyWord k) with
  | reset => left; exact ⟨rfl, decode_reset hk⟩
  | clear => right; left; exact ⟨rfl, decode_clear hk⟩
  | idle =>
    have hw := (wordKind_eq_idle_iff _).mp hk
    by_cases hs : 5 ≤ (keySt k).toNat
    · right; right; left
      exact ⟨hw.1, hw.2.1, hs, decode_stRecover hw.1 hw.2.1 hs⟩
    · right; right; right; left
      exact ⟨rfl, by omega, decode_idle hk (by omega)⟩
  | byte =>
    have hw := (wordKind_eq_byte_iff _).mp hk
    by_cases hs : 5 ≤ (keySt k).toNat
    · right; right; left
      exact ⟨hw.1, hw.2.1, hs, decode_stRecover hw.1 hw.2.1 hs⟩
    · right; right; right; right
      exact ⟨rfl, by omega, decode_byte hk (by omega)⟩

/-- Everything the decoder can answer, a byte step split by its legal state tag (30_encoding.md R77). -/
theorem decode_rows (c : GuardCtx) (k : Key) :
    (wordKind (keyWord k) = .reset ∧
      decode c k = .ok (.reset (keySt k) (wordClr (keyWord k)) (wordValid (keyWord k)) (wordData (keyWord k)))) ∨
    (wordKind (keyWord k) = .clear ∧
      decode c k = .ok (.clear (keySt k) (wordValid (keyWord k)) (wordData (keyWord k)))) ∨
    (wordRst (keyWord k) = false ∧ wordClr (keyWord k) = false ∧ 5 ≤ (keySt k).toNat ∧
      decode c k = .ok (.stRecover (keySt k) (wordValid (keyWord k)) (wordData (keyWord k)))) ∨
    (wordKind (keyWord k) = .idle ∧ (keySt k).toNat ≤ 4 ∧
      decode c k = .ok (.idle (keySt k) (wordData (keyWord k)))) ∨
    (wordKind (keyWord k) = .byte ∧ keySt k = 0#3 ∧
      decode c k = .ok (decodeSync c.win c.scanCnt c.syncBudget (wordData (keyWord k)))) ∨
    (wordKind (keyWord k) = .byte ∧ keySt k = 1#3 ∧ decode c k = .ok (decodeLength (wordData (keyWord k)))) ∨
    (wordKind (keyWord k) = .byte ∧ keySt k = 2#3 ∧
      decode c k = .ok (decodeType c.segLen (wordData (keyWord k)))) ∨
    (wordKind (keyWord k) = .byte ∧ keySt k = 3#3 ∧
      decode c k = decodeData c.idx c.segLen (wordData (keyWord k))) ∨
    (wordKind (keyWord k) = .byte ∧ keySt k = 4#3 ∧
      decode c k =
        .ok (decodeChecksum (registerChecksum c.segLen c.segType c.payload) (wordData (keyWord k)))) := by
  obtain h | h | h | h | ⟨hk, hs, hd⟩ := decode_cases c k
  · exact .inl h
  · exact .inr (.inl h)
  · exact .inr (.inr (.inl h))
  · exact .inr (.inr (.inr (.inl h)))
  · rw [hd]
    obtain h | h | h | h | h := legalTag_cases hs <;> simp [hk, h]

end Kinds

end Sys2Proof
end

