-- ==== Sys2Proof/Laws/State.lean ====
section
/-! SUPPORT. One lemma per field per update of `Regs` and `State`, true by `rfl`, so that no proof unfolds a record update. -/

namespace Sys2Proof.Machine

section RegsUpdates

variable (r : Regs)

@[simp] theorem Regs.parserReset_st : r.parserReset.st = 0#3 := rfl
@[simp] theorem Regs.parserReset_win : r.parserReset.win = 0#32 := rfl
@[simp] theorem Regs.parserReset_scanCnt : r.parserReset.scanCnt = 0#16 := rfl
@[simp] theorem Regs.parserReset_segLen : r.parserReset.segLen = 0x00#8 := rfl
@[simp] theorem Regs.parserReset_segType : r.parserReset.segType = 0x00#8 := rfl
@[simp] theorem Regs.parserReset_payload : r.parserReset.payload = Payload.zero := rfl
@[simp] theorem Regs.parserReset_idx : r.parserReset.idx = 0#6 := rfl
@[simp] theorem Regs.parserReset_cntSeg : r.parserReset.cntSeg = r.cntSeg := rfl
@[simp] theorem Regs.parserReset_cntFraming : r.parserReset.cntFraming = r.cntFraming := rfl
@[simp] theorem Regs.parserReset_cntChecksum : r.parserReset.cntChecksum = r.cntChecksum := rfl
@[simp] theorem Regs.parserReset_cntTimeout : r.parserReset.cntTimeout = r.cntTimeout := rfl

@[simp] theorem Regs.fullReset_st : r.fullReset.st = 0#3 := rfl
@[simp] theorem Regs.fullReset_win : r.fullReset.win = 0#32 := rfl
@[simp] theorem Regs.fullReset_scanCnt : r.fullReset.scanCnt = 0#16 := rfl
@[simp] theorem Regs.fullReset_segLen : r.fullReset.segLen = 0x00#8 := rfl
@[simp] theorem Regs.fullReset_segType : r.fullReset.segType = 0x00#8 := rfl
@[simp] theorem Regs.fullReset_payload : r.fullReset.payload = Payload.zero := rfl
@[simp] theorem Regs.fullReset_idx : r.fullReset.idx = 0#6 := rfl
@[simp] theorem Regs.fullReset_cntSeg : r.fullReset.cntSeg = 0#16 := rfl
@[simp] theorem Regs.fullReset_cntFraming : r.fullReset.cntFraming = 0#16 := rfl
@[simp] theorem Regs.fullReset_cntChecksum : r.fullReset.cntChecksum = 0#16 := rfl
@[simp] theorem Regs.fullReset_cntTimeout : r.fullReset.cntTimeout = 0#16 := rfl

@[simp] theorem Regs.countSeg_st : r.countSeg.st = r.st := rfl
@[simp] theorem Regs.countSeg_win : r.countSeg.win = r.win := rfl
@[simp] theorem Regs.countSeg_scanCnt : r.countSeg.scanCnt = r.scanCnt := rfl
@[simp] theorem Regs.countSeg_segLen : r.countSeg.segLen = r.segLen := rfl
@[simp] theorem Regs.countSeg_segType : r.countSeg.segType = r.segType := rfl
@[simp] theorem Regs.countSeg_payload : r.countSeg.payload = r.payload := rfl
@[simp] theorem Regs.countSeg_idx : r.countSeg.idx = r.idx := rfl
@[simp] theorem Regs.countSeg_cntSeg : r.countSeg.cntSeg = bumpCounter r.cntSeg := rfl
@[simp] theorem Regs.countSeg_cntFraming : r.countSeg.cntFraming = r.cntFraming := rfl
@[simp] theorem Regs.countSeg_cntChecksum : r.countSeg.cntChecksum = r.cntChecksum := rfl
@[simp] theorem Regs.countSeg_cntTimeout : r.countSeg.cntTimeout = r.cntTimeout := rfl

@[simp] theorem Regs.countFraming_st : r.countFraming.st = r.st := rfl
@[simp] theorem Regs.countFraming_win : r.countFraming.win = r.win := rfl
@[simp] theorem Regs.countFraming_scanCnt : r.countFraming.scanCnt = r.scanCnt := rfl
@[simp] theorem Regs.countFraming_segLen : r.countFraming.segLen = r.segLen := rfl
@[simp] theorem Regs.countFraming_segType : r.countFraming.segType = r.segType := rfl
@[simp] theorem Regs.countFraming_payload : r.countFraming.payload = r.payload := rfl
@[simp] theorem Regs.countFraming_idx : r.countFraming.idx = r.idx := rfl
@[simp] theorem Regs.countFraming_cntSeg : r.countFraming.cntSeg = r.cntSeg := rfl
@[simp] theorem Regs.countFraming_cntFraming : r.countFraming.cntFraming = bumpCounter r.cntFraming := rfl
@[simp] theorem Regs.countFraming_cntChecksum : r.countFraming.cntChecksum = r.cntChecksum := rfl
@[simp] theorem Regs.countFraming_cntTimeout : r.countFraming.cntTimeout = r.cntTimeout := rfl

@[simp] theorem Regs.countChecksum_st : r.countChecksum.st = r.st := rfl
@[simp] theorem Regs.countChecksum_win : r.countChecksum.win = r.win := rfl
@[simp] theorem Regs.countChecksum_scanCnt : r.countChecksum.scanCnt = r.scanCnt := rfl
@[simp] theorem Regs.countChecksum_segLen : r.countChecksum.segLen = r.segLen := rfl
@[simp] theorem Regs.countChecksum_segType : r.countChecksum.segType = r.segType := rfl
@[simp] theorem Regs.countChecksum_payload : r.countChecksum.payload = r.payload := rfl
@[simp] theorem Regs.countChecksum_idx : r.countChecksum.idx = r.idx := rfl
@[simp] theorem Regs.countChecksum_cntSeg : r.countChecksum.cntSeg = r.cntSeg := rfl
@[simp] theorem Regs.countChecksum_cntFraming : r.countChecksum.cntFraming = r.cntFraming := rfl
@[simp] theorem Regs.countChecksum_cntChecksum : r.countChecksum.cntChecksum = bumpCounter r.cntChecksum := rfl
@[simp] theorem Regs.countChecksum_cntTimeout : r.countChecksum.cntTimeout = r.cntTimeout := rfl

@[simp] theorem Regs.countTimeout_st : r.countTimeout.st = r.st := rfl
@[simp] theorem Regs.countTimeout_win : r.countTimeout.win = r.win := rfl
@[simp] theorem Regs.countTimeout_scanCnt : r.countTimeout.scanCnt = r.scanCnt := rfl
@[simp] theorem Regs.countTimeout_segLen : r.countTimeout.segLen = r.segLen := rfl
@[simp] theorem Regs.countTimeout_segType : r.countTimeout.segType = r.segType := rfl
@[simp] theorem Regs.countTimeout_payload : r.countTimeout.payload = r.payload := rfl
@[simp] theorem Regs.countTimeout_idx : r.countTimeout.idx = r.idx := rfl
@[simp] theorem Regs.countTimeout_cntSeg : r.countTimeout.cntSeg = r.cntSeg := rfl
@[simp] theorem Regs.countTimeout_cntFraming : r.countTimeout.cntFraming = r.cntFraming := rfl
@[simp] theorem Regs.countTimeout_cntChecksum : r.countTimeout.cntChecksum = r.cntChecksum := rfl
@[simp] theorem Regs.countTimeout_cntTimeout : r.countTimeout.cntTimeout = bumpCounter r.cntTimeout := rfl

@[simp] theorem Regs.guardCtx_win (b : BitVec 16) : (r.guardCtx b).win = r.win := rfl
@[simp] theorem Regs.guardCtx_scanCnt (b : BitVec 16) : (r.guardCtx b).scanCnt = r.scanCnt := rfl
@[simp] theorem Regs.guardCtx_segLen (b : BitVec 16) : (r.guardCtx b).segLen = r.segLen := rfl
@[simp] theorem Regs.guardCtx_segType (b : BitVec 16) : (r.guardCtx b).segType = r.segType := rfl
@[simp] theorem Regs.guardCtx_payload (b : BitVec 16) : (r.guardCtx b).payload = r.payload := rfl
@[simp] theorem Regs.guardCtx_idx (b : BitVec 16) : (r.guardCtx b).idx = r.idx := rfl
@[simp] theorem Regs.guardCtx_syncBudget (b : BitVec 16) : (r.guardCtx b).syncBudget = b := rfl

end RegsUpdates

section StateUpdates

variable (s : State) (ds : List Drive) (d : Drive)

@[simp] theorem State.sampled_regs : s.sampled.regs = s.regs := rfl
@[simp] theorem State.sampled_inputs : s.sampled.inputs = s.inputs.tail := rfl
@[simp] theorem State.sampled_syncBudget : s.sampled.syncBudget = s.drive.budget := rfl
@[simp] theorem State.sampled_event : s.sampled.event = s.event := rfl
@[simp] theorem State.sampled_stepNo : s.sampled.stepNo = s.stepNo + 1 := rfl

@[simp] theorem State.withInputs_regs : (s.withInputs ds).regs = s.regs := rfl
@[simp] theorem State.withInputs_inputs : (s.withInputs ds).inputs = ds := rfl
@[simp] theorem State.withInputs_syncBudget : (s.withInputs ds).syncBudget = s.syncBudget := rfl
@[simp] theorem State.withInputs_event : (s.withInputs ds).event = s.event := rfl
@[simp] theorem State.withInputs_stepNo : (s.withInputs ds).stepNo = s.stepNo := rfl
@[simp] theorem State.withInputs_withInputs (es : List Drive) : (s.withInputs ds).withInputs es = s.withInputs es := rfl
@[simp] theorem State.withInputs_self : s.withInputs s.inputs = s := rfl

@[simp] theorem State.drive_withInputs_nil : (s.withInputs []).drive = { word := idleWord, budget := s.syncBudget } := rfl
@[simp] theorem State.drive_withInputs_cons : (s.withInputs (d :: ds)).drive = d := rfl

theorem State.drive_of_nil (h : s.inputs = []) : s.drive = { word := idleWord, budget := s.syncBudget } := by
  simp [State.drive, h]

theorem State.drive_of_cons (h : s.inputs = d :: ds) : s.drive = d := by
  simp [State.drive, h]

end StateUpdates

end Sys2Proof.Machine
end

