-- ==== Sys2Proof/Laws/Ops.lean ====
section
/-! SUPPORT. What each shared operation can do, said once. -/

namespace Sys2Proof.Machine

section Ops

variable (s t : State) (r r' : Regs) (e : Event) (data : Byte)

/-- A step's end answers a next state, always this one. -/
@[simp] theorem State.commit_eq : s.commit r e = .next { s with regs := r, event := e } := rfl

@[simp] theorem State.backToSync_eq (count : Regs → Regs) :
    s.backToSync count e = .next { s with regs := count s.regs.parserReset, event := e } := rfl

/-- The payload store below the register file's end. -/
theorem Regs.storeData_of_lt (h : r.idx.toNat < 32) :
    r.storeData data =
      .ok { r with payload := r.payload.set r.idx.toNat data h, idx := BitVec.ofNat 6 (r.idx.toNat + 1) } := by
  simp [Regs.storeData, h]

/-- The payload store past the register file's end. -/
theorem Regs.storeData_of_ge (h : 32 ≤ r.idx.toNat) : r.storeData data = .error (.payloadRange r.idx) := by
  simp [Regs.storeData, Nat.not_lt.mpr h]

theorem State.takeData_of_lt (st : BitVec 3) (h : s.regs.idx.toNat < 32) :
    s.takeData st data =
      .next { s with
        regs := { s.regs with
          payload := s.regs.payload.set s.regs.idx.toNat data h,
          idx := BitVec.ofNat 6 (s.regs.idx.toNat + 1),
          st := st },
        event := .none } := by
  simp [State.takeData, Regs.storeData_of_lt _ _ h]

theorem State.takeData_of_ge (st : BitVec 3) (h : 32 ≤ s.regs.idx.toNat) :
    s.takeData st data = .fault (.payloadRange s.regs.idx) := by
  simp [State.takeData, Regs.storeData_of_ge _ _ h]

/-- Everything storing a DATA byte can do when it answers a next state. -/
theorem State.takeData_cases {s t : State} {st : BitVec 3} {data : Byte} (h : s.takeData st data = .next t) :
    ∃ hi : s.regs.idx.toNat < 32,
      t = { s with
        regs := { s.regs with
          payload := s.regs.payload.set s.regs.idx.toNat data hi,
          idx := BitVec.ofNat 6 (s.regs.idx.toNat + 1),
          st := st },
        event := .none } := by
  by_cases hi : s.regs.idx.toNat < 32
  · rw [State.takeData_of_lt _ _ _ hi] at h
    injection h with h
    exact ⟨hi, h.symm⟩
  · rw [State.takeData_of_ge _ _ _ (by omega)] at h
    cases h

/-- ParserReset twice is ParserReset. -/
@[simp] theorem Regs.parserReset_parserReset : r.parserReset.parserReset = r.parserReset := rfl

theorem Regs.fullReset_eq_reset : r.fullReset = Regs.reset := rfl

end Ops

end Sys2Proof.Machine
end

