-- ==== Sys2Proof/Laws/PerInstr.lean ====
section
/-! SUPPORT. Per instruction: its encoding lies on its own row of the opcode map (30_encoding.md R77). -/

namespace Sys2Proof.Laws.TableRow

/-- The encoding of an instruction, under its row's mask, is its row's match. -/
def Statement (i : Instr) : Prop := encode i &&& rowMask i = rowMatch i

section Rows

variable (st : BitVec 3) (clr valid : Bool) (data : Byte)

theorem reset : Statement (.reset st clr valid data) := by
  simp only [Statement, encode, rowMask, rowMatch, key_and_0400, keyWord_keyOf, wordRst_packWord]

theorem clear : Statement (.clear st valid data) := by
  simp only [Statement, encode, rowMask, rowMatch, key_and_0600_clear, keyWord_keyOf, wordRst_packWord, wordClr_packWord,
    and_self]

theorem stRecover : Statement (.stRecover st valid data) := by
  simp only [Statement, encode, rowMask, rowMatch, key_and_0600_zero, keyWord_keyOf, wordRst_packWord, wordClr_packWord,
    and_self]

theorem idle : Statement (.idle st data) := by
  simp only [Statement, encode, rowMask, rowMatch, key_and_0700, keyWord_keyOf]
  simp [wordKind]

/-- The keys of AwaitSync. -/
theorem keyOf_sync : keyOf 0#3 (byteWord data) &&& 0x3F00#14 = 0x0100#14 := by
  simp only [key_and_3F00_sync, keySt_keyOf, keyWord_keyOf, wordKind_byteWord, and_self]

theorem syncMatch : Statement (.syncMatch data) := keyOf_sync data
theorem syncShift : Statement (.syncShift data) := keyOf_sync data
theorem syncTimeout : Statement (.syncTimeout data) := keyOf_sync data

/-- The keys of AwaitLength. -/
theorem keyOf_length : keyOf 1#3 (byteWord data) &&& 0x3F00#14 = 0x0900#14 := by
  simp only [key_and_3F00_length, keySt_keyOf, keyWord_keyOf, wordKind_byteWord, and_self]

theorem lenAccept : Statement (.lenAccept data) := keyOf_length data
theorem lenReject : Statement (.lenReject data) := keyOf_length data

/-- The keys of AwaitType. -/
theorem keyOf_type : keyOf 2#3 (byteWord data) &&& 0x3F00#14 = 0x1100#14 := by
  simp only [key_and_3F00_type, keySt_keyOf, keyWord_keyOf, wordKind_byteWord, and_self]

theorem typeData : Statement (.typeData data) := keyOf_type data
theorem typeNoData : Statement (.typeNoData data) := keyOf_type data

/-- The keys of AwaitData. -/
theorem keyOf_data : keyOf 3#3 (byteWord data) &&& 0x3F00#14 = 0x1900#14 := by
  simp only [key_and_3F00_data, keySt_keyOf, keyWord_keyOf, wordKind_byteWord, and_self]

theorem dataNext : Statement (.dataNext data) := keyOf_data data
theorem dataLast : Statement (.dataLast data) := keyOf_data data

/-- The keys of AwaitChecksum. -/
theorem keyOf_checksum : keyOf 4#3 (byteWord data) &&& 0x3F00#14 = 0x2100#14 := by
  simp only [key_and_3F00_checksum, keySt_keyOf, keyWord_keyOf, wordKind_byteWord, and_self]

theorem chkPass : Statement (.chkPass data) := keyOf_checksum data
theorem chkFail : Statement (.chkFail data) := keyOf_checksum data

end Rows

end Sys2Proof.Laws.TableRow
end

