-- ==== Sys2Proof/Laws/Step.lean ====
section
/-! SUPPORT. What one step does, said once: where every row that can apply completes, the registers and the event after it
as one function of the registers, the budget and the input word, and that every completed step is of this form. -/

namespace Sys2Proof.Machine

/-- The registers and the event after a byte step with a legal state tag. -/
def Regs.afterByte (budget : BitVec 16) (r : Regs) (data : Byte) : Regs × Event :=
  if r.st = 0#3 then
    if windowAfter r.win data = Config.markerWord then ({ r with st := 1#3, win := 0#32, scanCnt := 0#16 }, .none)
    else if budgetSpent budget r.scanCnt then
      ({ r with win := windowAfter r.win data, scanCnt := 0#16, cntTimeout := r.cntTimeout + 1#16 },
        .syncTimeout (scanAfter r.scanCnt))
    else ({ r with win := windowAfter r.win data, scanCnt := scanAfter r.scanCnt }, .none)
  else if r.st = 1#3 then
    if data.toNat ≤ 32 then ({ r with segLen := data, st := 2#3 }, .none)
    else ({ r.parserReset with cntFraming := r.cntFraming + 1#16 }, .framingError data)
  else if r.st = 2#3 then
    ({ r with segType := data, idx := 0#6, st := if r.segLen = 0x00#8 then 4#3 else 3#3 }, .none)
  else if r.st = 3#3 then
    if h : r.idx.toNat < 32 then
      ({ r with
          payload := r.payload.set r.idx.toNat data h
          idx := r.idx + 1#6
          st := if r.idx.toNat + 1 < r.segLen.toNat then 3#3 else 4#3 }, .none)
    else (r, .none)
  else if data = r.chk then ({ r.parserReset with cntSeg := r.cntSeg + 1#16 }, .segment (r.segment data))
  else ({ r.parserReset with cntChecksum := r.cntChecksum + 1#16 }, .checksumMismatch data r.chk)

/-- The registers and the event after a step. -/
def Regs.afterStep (budget : BitVec 16) (r : Regs) (w : InputWord) : Regs × Event :=
  match wordKind w with
  | .reset => (Regs.reset, .none)
  | .clear => (r.parserReset, .none)
  | .idle => if 5 ≤ r.st.toNat then (r.parserReset, .none) else (r, .none)
  | .byte => if 5 ≤ r.st.toNat then (r.parserReset, .none) else r.afterByte budget (wordData w)

/-- The state after a step that leaves the registers `p.1` and raises `p.2`. -/
def State.settled (s : State) (p : Regs × Event) : State := { s.sampled with regs := p.1, event := p.2 }

/-- A byte step in AwaitData has a row and an entry to write. Every state of a run meets it (10_state.md R39 item 3). -/
abbrev State.DataCovered (s : State) : Prop :=
  s.regs.st = 3#3 → wordKind s.drive.word = .byte →
    s.regs.idx.toNat + 1 ≤ s.regs.segLen.toNat ∧ s.regs.idx.toNat < 32

theorem idx_add_one (idx : BitVec 6) : BitVec.ofNat 6 (idx.toNat + 1) = idx + 1#6 := by
  apply BitVec.eq_of_toNat_eq
  simp

/-- `exec` refuses no instruction. -/
theorem exec_ne_refused (i : Instr) (s : State) (r : Refusal) : exec i s ≠ .refused r := by
  cases i <;> try (intro h; cases h)
  all_goals
    simp only [exec, execDataNext, execDataLast]
    by_cases hi : s.regs.idx.toNat < 32
    · simp [State.takeData_of_lt _ _ _ hi]
    · simp [State.takeData_of_ge _ _ _ (Nat.le_of_not_lt hi)]

section Steps

variable {s t : State}

theorem step_eq_exec {i : Instr} (h : s.fetch = .ok i) : step s = exec i s.sampled := by rw [step, h]

/-- Where the AwaitData rows complete, every step completes in the state `afterStep` gives. -/
theorem step_eq (h : s.DataCovered) :
    step s = .next (s.settled (s.regs.afterStep s.drive.budget s.drive.word)) := by
  obtain ⟨hk, hd⟩ | ⟨hk, hd⟩ | ⟨h1, h2, hs, hd⟩ | ⟨hk, hs, hd⟩ | ⟨hk, hs, hd⟩ | ⟨hk, hs, hd⟩ | ⟨hk, hs, hd⟩ |
      ⟨hk, hs, hd⟩ | ⟨hk, hs, hd⟩ := decode_rows (s.regs.guardCtx s.drive.budget) (keyOf s.regs.st s.drive.word) <;>
    rw [step, State.fetch, hd, Regs.afterStep]
  · rw [keyWord_keyOf] at hk
    rw [hk]
    rfl
  · rw [keyWord_keyOf] at hk
    rw [hk]
    rfl
  · rw [keyWord_keyOf] at h1 h2
    rw [keySt_keyOf] at hs
    cases hv : wordValid s.drive.word with
    | false =>
      rw [(wordKind_eq_idle_iff _).mpr ⟨h1, h2, hv⟩]
      simp only [hs, if_true]
      rfl
    | true =>
      rw [(wordKind_eq_byte_iff _).mpr ⟨h1, h2, hv⟩]
      simp only [hs, if_true]
      rfl
  · rw [keyWord_keyOf] at hk
    rw [keySt_keyOf] at hs
    rw [hk]
    simp only [show ¬ 5 ≤ s.regs.st.toNat by omega, if_false]
    rfl
  all_goals
    rw [keyWord_keyOf] at hk ⊢
    rw [keySt_keyOf] at hs
    rw [hk]
    simp only [show ¬ 5 ≤ s.regs.st.toNat by rw [hs]; decide, if_false]
    unfold Regs.afterByte
    simp only [hs, show ¬ (1#3 = 0#3) by decide, show ¬ (2#3 = 0#3) by decide, show ¬ (2#3 = 1#3) by decide,
      show ¬ (3#3 = 0#3) by decide, show ¬ (3#3 = 1#3) by decide, show ¬ (3#3 = 2#3) by decide,
      show ¬ (4#3 = 0#3) by decide, show ¬ (4#3 = 1#3) by decide, show ¬ (4#3 = 2#3) by decide,
      show ¬ (4#3 = 3#3) by decide, if_true, if_false]
  · obtain ⟨hd', g⟩ | ⟨hd', g⟩ | ⟨hd', g⟩ :=
        decodeSync_cases s.regs.win s.regs.scanCnt s.drive.budget (wordData s.drive.word) <;>
      simp only [Regs.guardCtx_win, Regs.guardCtx_syncBudget, Regs.guardCtx_scanCnt, hd', g, if_true, if_false,
        Bool.false_eq_true]
    · rfl
    · rw [← bumpCounter_eq_add, ← hs]
      rfl
    · rw [← hs]
      rfl
  · by_cases hl : (wordData s.drive.word).toNat ≤ 32
    · simp only [decodeLength, Config.maxLen, hl, if_true]
      rfl
    · simp only [decodeLength, Config.maxLen, hl, if_false]
      rw [← bumpCounter_eq_add]
      rfl
  · by_cases hl : s.regs.segLen = 0x00#8
    · rw [if_pos hl, decodeType, if_pos (show (s.regs.guardCtx _).segLen = 0x00#8 from hl)]
      rfl
    · rw [if_neg hl, decodeType, if_neg (show ¬ (s.regs.guardCtx _).segLen = 0x00#8 from hl)]
      rfl
  · obtain ⟨hl, hi⟩ := h hs hk
    rw [show decodeData (s.regs.guardCtx s.drive.budget).idx (s.regs.guardCtx s.drive.budget).segLen =
      decodeData s.regs.idx s.regs.segLen from rfl, decodeData, dif_pos hi, ← idx_add_one]
    by_cases hn : s.regs.idx.toNat + 1 < s.regs.segLen.toNat
    · rw [if_pos hn, if_pos hn, ← hs]
      exact State.takeData_of_lt s.sampled _ _ hi
    · rw [if_neg hn, if_neg hn, if_pos (show s.regs.idx.toNat + 1 = s.regs.segLen.toNat by omega)]
      exact State.takeData_of_lt s.sampled _ _ hi
  · rw [show registerChecksum (s.regs.guardCtx s.drive.budget).segLen (s.regs.guardCtx s.drive.budget).segType
      (s.regs.guardCtx s.drive.budget).payload = s.regs.chk from rfl, decodeChecksum]
    by_cases hl : wordData s.drive.word = s.regs.chk
    · rw [if_pos hl, if_pos hl, ← bumpCounter_eq_add]
      rfl
    · rw [if_neg hl, if_neg hl, ← bumpCounter_eq_add]
      rfl

/-- A byte step in AwaitData runs the data rows. -/
theorem fetch_data (hs : s.regs.st = 3#3) (hk : wordKind s.drive.word = .byte) :
    s.fetch = decodeData s.regs.idx s.regs.segLen (wordData s.drive.word) := by
  rw [State.fetch, decode_byte] <;> simp [hs, hk]

/-- Everything a step that answers a next state can do. -/
theorem step_next (h : step s = .next t) :
    s.DataCovered ∧ t = s.settled (s.regs.afterStep s.drive.budget s.drive.word) := by
  have hc : s.DataCovered := by
    intro hs hk
    rw [step, fetch_data hs hk, decodeData] at h
    by_cases h1 : s.regs.idx.toNat + 1 < s.regs.segLen.toNat
    · rw [if_pos h1] at h
      obtain ⟨hi, -⟩ := State.takeData_cases (s := s.sampled) h
      exact ⟨by omega, hi⟩
    · rw [if_neg h1] at h
      by_cases h2 : s.regs.idx.toNat + 1 = s.regs.segLen.toNat
      · rw [if_pos h2] at h
        obtain ⟨hi, -⟩ := State.takeData_cases (s := s.sampled) h
        exact ⟨by omega, hi⟩
      · rw [if_neg h2] at h
        cases h
  refine ⟨hc, ?_⟩
  rw [step_eq hc] at h
  injection h with h
  exact h.symm

end Steps

section Settled

variable (s : State) (p : Regs × Event)

@[simp] theorem State.settled_regs : (s.settled p).regs = p.1 := rfl
@[simp] theorem State.settled_event : (s.settled p).event = p.2 := rfl
@[simp] theorem State.settled_inputs : (s.settled p).inputs = s.inputs.tail := rfl
@[simp] theorem State.settled_syncBudget : (s.settled p).syncBudget = s.drive.budget := rfl
@[simp] theorem State.settled_stepNo : (s.settled p).stepNo = s.stepNo + 1 := rfl

end Settled

end Sys2Proof.Machine
end

