-- ==== Sys2Proof/Tests/Slice0.lean ====
section
/-! SUPPORT. Tests and witnesses. Expected values are from 95_test_vectors.md, whose vector each test names, or worked out by
hand from the rule it names. A `test_witness_` theorem shows a state and operands that meet the hypotheses of the obligation
it names. -/

namespace Sys2Proof.Tests

open Sys2Proof.Machine

/-! ### Small states -/

/-- The registers `r` with one input word presented under a `sync_budget`. -/
def given (r : Regs) (w : InputWord) (budget : BitVec 16) : State :=
  { State.reset with regs := r, inputs := [{ word := w, budget := budget }] }

/-- The registers, the event and the two event outputs after one step. -/
def outcome (r : Regs) (w : InputWord) (budget : BitVec 16) : Option (Regs × Event × BitVec 3 × BitVec 16) :=
  match step (given r w budget) with
  | .next t => some (t.regs, t.event, t.evtCode, t.evtInfo)
  | .fault _ => none
  | .refused _ => none

/-- The first vectors' payload: `AA BB CC`, rest `00`. -/
def abc : Payload := ((Payload.zero.set 0 0xAA#8).set 1 0xBB#8).set 2 0xCC#8

/-- V-K2's registers: AwaitChecksum, LENGTH 3, TYPE 10, `AA BB CC`. -/
def awaitChecksum : Regs :=
  { Regs.reset with st := 4#3, segLen := 0x03#8, segType := 0x10#8, payload := abc, idx := 3#6 }

/-- AwaitData with the given `seg_len` and `idx`, every payload entry 0. -/
def awaitData (segLen : Byte) (idx : BitVec 6) : Regs := { Regs.reset with st := 3#3, segLen := segLen, idx := idx }

/-- V-C3's registers: `st = 3`, `seg_len = 5`, `idx = 2`, counters 1, 2, 3, 4. -/
def midFrame : Regs :=
  { awaitData 0x05#8 2#6 with
    payload := (Payload.zero.set 0 0xAA#8).set 1 0xBB#8
    cntSeg := 1#16, cntFraming := 2#16, cntChecksum := 3#16, cntTimeout := 4#16 }

/-- AwaitSync with a window and a scan count. -/
def awaitSync (win : BitVec 32) (scanCnt : BitVec 16) : Regs := { Regs.reset with win := win, scanCnt := scanCnt }

/-- Guard values for the decoder's tests. -/
def ctx (r : Regs) (budget : BitVec 16) : GuardCtx := r.guardCtx budget

/-! ### Well-formedness: an ill-formed term for each check (30_encoding.md R77, guards) -/

theorem test_wf_accepts :
    (Instr.stRecover 5#3 true 0x00#8).wellFormed ∧ (Instr.idle 4#3 0xAB#8).wellFormed ∧
      (Instr.syncMatch 0x04#8).wellFormed ∧ (Instr.lenAccept 0x20#8).wellFormed ∧
      (Instr.lenReject 0x21#8).wellFormed := by decide

theorem test_wf_refuses_recover_with_a_legal_tag : (Instr.stRecover 4#3 true 0x00#8).wellFormed = false := by decide

theorem test_wf_refuses_idle_with_a_reserved_tag : (Instr.idle 5#3 0x00#8).wellFormed = false := by decide

theorem test_wf_refuses_match_with_another_byte : (Instr.syncMatch 0x05#8).wellFormed = false := by decide

theorem test_wf_refuses_accept_above_32 : (Instr.lenAccept 0x21#8).wellFormed = false := by decide

theorem test_wf_refuses_reject_of_32 : (Instr.lenReject 0x20#8).wellFormed = false := by decide

/-! ### Decoding: words written out bit by bit, `st rst clr valid data` (30_encoding.md R77) -/

theorem test_decode_reset :
    decode (ctx midFrame 0#16) 0b01111111111111#14 = .ok (.reset 3#3 true true 0xFF#8) := by decide

theorem test_decode_clear : decode (ctx midFrame 0#16) 0b01101100000001#14 = .ok (.clear 3#3 true 0x01#8) := by decide

theorem test_decode_stRecover :
    decode (ctx midFrame 0#16) 0b11000100000001#14 = .ok (.stRecover 6#3 true 0x01#8) := by decide

theorem test_decode_idle : decode (ctx midFrame 0#16) 0b01100010101011#14 = .ok (.idle 3#3 0xAB#8) := by decide

theorem test_decode_syncMatch :
    decode (ctx (awaitSync 0x00010203#32 3#16) 4#16) 0b00000100000100#14 = .ok (.syncMatch 0x04#8) := by decide

theorem test_decode_syncShift :
    decode (ctx (awaitSync 0x00000102#32 2#16) 0#16) 0b00000100000101#14 = .ok (.syncShift 0x05#8) := by decide

theorem test_decode_syncTimeout :
    decode (ctx (awaitSync 0x00AABBCC#32 3#16) 4#16) 0b00000111011101#14 = .ok (.syncTimeout 0xDD#8) := by decide

theorem test_decode_lenAccept :
    decode (ctx Regs.reset 0#16) 0b00100100100000#14 = .ok (.lenAccept 0x20#8) := by decide

theorem test_decode_lenReject :
    decode (ctx Regs.reset 0#16) 0b00100100100001#14 = .ok (.lenReject 0x21#8) := by decide

theorem test_decode_typeData :
    decode (ctx { Regs.reset with segLen := 0x03#8 } 0#16) 0b01000100010000#14 = .ok (.typeData 0x10#8) := by decide

theorem test_decode_typeNoData :
    decode (ctx Regs.reset 0#16) 0b01000100000101#14 = .ok (.typeNoData 0x05#8) := by decide

theorem test_decode_dataNext :
    decode (ctx (awaitData 0x20#8 30#6) 0#16) 0b01100100011110#14 = .ok (.dataNext 0x1E#8) := by decide

theorem test_decode_dataLast :
    decode (ctx (awaitData 0x20#8 31#6) 0#16) 0b01100100011111#14 = .ok (.dataLast 0x1F#8) := by decide

theorem test_decode_chkPass :
    decode (ctx awaitChecksum 0#16) 0b10000101000100#14 = .ok (.chkPass 0x44#8) := by decide

theorem test_decode_chkFail :
    decode (ctx awaitChecksum 0#16) 0b10000101000101#14 = .ok (.chkFail 0x45#8) := by decide

/-- The combination no row covers (30_encoding.md R77): `idx + 1 > seg_len` in AwaitData. -/
theorem test_decode_noRow :
    decode (ctx (awaitData 0x02#8 2#6) 0#16) 0b01100100000000#14 = .error .noRow := by decide

/-- The encoder, against the same words. -/
theorem test_encode :
    encode (.reset 3#3 true true 0xFF#8) = 0b01111111111111#14 ∧ encode (.clear 3#3 true 0x01#8) = 0b01101100000001#14 ∧
      encode (.stRecover 6#3 true 0x01#8) = 0b11000100000001#14 ∧ encode (.idle 3#3 0xAB#8) = 0b01100010101011#14 ∧
      encode (.syncTimeout 0xDD#8) = 0b00000111011101#14 ∧ encode (.lenReject 0x21#8) = 0b00100100100001#14 ∧
      encode (.typeData 0x10#8) = 0b01000100010000#14 ∧ encode (.dataLast 0x1F#8) = 0b01100100011111#14 ∧
      encode (.chkFail 0x45#8) = 0b10000101000101#14 := by decide

/-! ### One step per row -/

/-- V-C5, V-C6. -/
theorem test_step_reset :
    outcome midFrame 0x400#11 0#16 = some (Regs.reset, .none, 0#3, 0#16) ∧
      outcome midFrame 0x7FF#11 0#16 = some (Regs.reset, .none, 0#3, 0#16) := by decide

/-- V-C3, V-C4. -/
theorem test_step_clear :
    outcome midFrame 0x200#11 0#16 = outcome midFrame 0x301#11 0#16 ∧
      outcome midFrame 0x301#11 0#16 =
        some ({ Regs.reset with cntSeg := 1#16, cntFraming := 2#16, cntChecksum := 3#16, cntTimeout := 4#16 },
          .none, 0#3, 0#16) := by decide

/-- V-C7, V-C8. -/
theorem test_step_stRecover :
    outcome { awaitSync 0x00010203#32 7#16 with st := 6#3 } 0x101#11 0#16 = some (Regs.reset, .none, 0#3, 0#16) ∧
      outcome { awaitSync 0x00010203#32 7#16 with st := 6#3 } 0x000#11 0#16 = some (Regs.reset, .none, 0#3, 0#16) := by
  decide

/-- V-C1, V-C2. -/
theorem test_step_idle :
    outcome midFrame 0x000#11 0#16 = some (midFrame, .none, 0#3, 0#16) ∧
      outcome midFrame 0x0AB#11 0#16 = some (midFrame, .none, 0#3, 0#16) := by decide

/-- V-S2, and V-S5: the match wins over the budget. -/
theorem test_step_syncMatch :
    outcome (awaitSync 0x00010203#32 3#16) 0x104#11 0#16 = some ({ Regs.reset with st := 1#3 }, .none, 0#3, 0#16) ∧
      outcome (awaitSync 0x00010203#32 3#16) 0x104#11 4#16 =
        some ({ Regs.reset with st := 1#3 }, .none, 0#3, 0#16) := by decide

/-- V-S3. -/
theorem test_step_syncShift :
    outcome (awaitSync 0x00000102#32 2#16) 0x105#11 0#16 =
      some (awaitSync 0x00010205#32 3#16, .none, 0#3, 0#16) := by decide

/-- V-S6: the scan count saturates. -/
theorem test_step_syncShift_saturates :
    outcome (awaitSync 0x11223344#32 0xFFFF#16) 0x155#11 0#16 =
      some (awaitSync 0x22334455#32 0xFFFF#16, .none, 0#3, 0#16) := by decide

/-- V-S4, with a wrapping counter (10_state.md R29). -/
theorem test_step_syncTimeout :
    outcome { awaitSync 0x00AABBCC#32 3#16 with cntTimeout := 0xFFFF#16 } 0x1DD#11 4#16 =
      some (awaitSync 0xAABBCCDD#32 0#16, .syncTimeout 4#16, 2#3, 0x0004#16) := by decide

/-- V-S7 and V-S8: the saturated count, and a budget lowered below the count. -/
theorem test_step_syncTimeout_corners :
    outcome (awaitSync 0#32 0xFFFF#16) 0x155#11 0xFFFF#16 =
        some ({ awaitSync 0x55#32 0#16 with cntTimeout := 1#16 }, .syncTimeout 0xFFFF#16, 2#3, 0xFFFF#16) ∧
      outcome (awaitSync 0#32 10#16) 0x100#11 5#16 =
        some ({ awaitSync 0#32 0#16 with cntTimeout := 1#16 }, .syncTimeout 11#16, 2#3, 0x000B#16) := by decide

/-- V-L3. -/
theorem test_step_lenAccept :
    outcome { Regs.reset with st := 1#3 } 0x120#11 0#16 =
      some ({ Regs.reset with st := 2#3, segLen := 0x20#8 }, .none, 0#3, 0#16) := by decide

/-- V-L1, V-L4. -/
theorem test_step_lenReject :
    outcome { Regs.reset with st := 1#3 } 0x121#11 0#16 =
        some ({ Regs.reset with cntFraming := 1#16 }, .framingError 0x21#8, 3#3, 0x0021#16) ∧
      outcome { Regs.reset with st := 1#3 } 0x1FF#11 0#16 =
        some ({ Regs.reset with cntFraming := 1#16 }, .framingError 0xFF#8, 3#3, 0x00FF#16) := by decide

/-- V-T2. -/
theorem test_step_typeData :
    outcome { Regs.reset with st := 2#3, segLen := 0x03#8 } 0x110#11 0#16 =
      some ({ Regs.reset with st := 3#3, segLen := 0x03#8, segType := 0x10#8 }, .none, 0#3, 0#16) := by decide

/-- V-T1. -/
theorem test_step_typeNoData :
    outcome { Regs.reset with st := 2#3 } 0x105#11 0#16 =
      some ({ Regs.reset with st := 4#3, segType := 0x05#8 }, .none, 0#3, 0#16) := by decide

/-- V-D6: a marker byte in DATA does not enter the window. -/
theorem test_step_dataNext :
    outcome (awaitData 0x03#8 1#6) 0x104#11 0#16 =
      some ({ awaitData 0x03#8 2#6 with payload := Payload.zero.set 1 0x04#8 }, .none, 0#3, 0#16) := by decide

/-- V-D4. -/
theorem test_step_dataNext_near_the_end :
    outcome (awaitData 0x20#8 30#6) 0x11E#11 0#16 =
      some ({ awaitData 0x20#8 31#6 with payload := Payload.zero.set 30 0x1E#8 }, .none, 0#3, 0#16) := by decide

/-- V-D1. -/
theorem test_step_dataLast :
    outcome (awaitData 0x01#8 0#6) 0x17F#11 0#16 =
      some ({ awaitData 0x01#8 1#6 with st := 4#3, payload := Payload.zero.set 0 0x7F#8 }, .none, 0#3, 0#16) := by decide

/-- V-D5: the last entry of the register file. -/
theorem test_step_dataLast_entry_31 :
    outcome (awaitData 0x20#8 31#6) 0x11F#11 0#16 =
      some ({ awaitData 0x20#8 32#6 with st := 4#3, payload := Payload.zero.set 31 0x1F#8 }, .none, 0#3, 0#16) := by
  decide

/-- V-K2. -/
theorem test_step_chkPass :
    outcome awaitChecksum 0x144#11 0#16 =
      some ({ Regs.reset with cntSeg := 1#16 },
        .segment { length := 0x03#8, type := 0x10#8, payload := abc, checksum := 0x44#8 }, 1#3, 0x0000#16) := by decide

/-- V-K5: the empty frame. -/
theorem test_step_chkPass_empty :
    outcome { Regs.reset with st := 4#3 } 0x100#11 0#16 =
      some ({ Regs.reset with cntSeg := 1#16 },
        .segment { length := 0x00#8, type := 0x00#8, payload := Payload.zero, checksum := 0x00#8 }, 1#3, 0x0000#16) := by
  decide

/-- V-K4. -/
theorem test_step_chkFail :
    outcome awaitChecksum 0x145#11 0#16 =
      some ({ Regs.reset with cntChecksum := 1#16 }, .checksumMismatch 0x45#8 0x44#8, 4#3, 0x4544#16) := by decide

/-- V-K6. -/
theorem test_step_chkFail_empty :
    outcome { Regs.reset with st := 4#3, segType := 0x05#8 } 0x104#11 0#16 =
      some ({ Regs.reset with cntChecksum := 1#16 }, .checksumMismatch 0x04#8 0x05#8, 4#3, 0x0405#16) := by decide

/-! ### Values -/

/-- V-K1: seven rows of the table. -/
theorem test_checksum_vectors :
    checksumFn 0x00#8 0xFF#8 [] = 0xFF#8 ∧ checksumFn 0x01#8 0x01#8 [0xFF#8] = 0x01#8 ∧
      checksumFn 0x01#8 0x09#8 [0x7F#8] = 0x89#8 ∧ checksumFn 0x02#8 0x7E#8 [0x10#8, 0x20#8] = 0xB0#8 ∧
      checksumFn 0x02#8 0xAA#8 [0x01#8, 0x02#8] = 0xAF#8 ∧
      checksumFn 0x20#8 0xA5#8 (List.replicate 32 0xFF#8) = 0xA5#8 ∧
      checksumFn 0x20#8 0xFF#8 (List.replicate 32 0xFF#8) = 0xFF#8 := by decide

/-- V-F2 and V-RT: two frames on the wire. -/
theorem test_encodeFrame :
    encodeFrame 0x10#8 [0xAA#8, 0xBB#8, 0xCC#8] =
        [0x01#8, 0x02#8, 0x03#8, 0x04#8, 0x03#8, 0x10#8, 0xAA#8, 0xBB#8, 0xCC#8, 0x44#8] ∧
      encodeFrame 0x5A#8 [] = [0x01#8, 0x02#8, 0x03#8, 0x04#8, 0x00#8, 0x5A#8, 0x5A#8] := by decide

/-- 30_encoding.md R79: entry 0 in bits 7:0, entry 2 in bits 23:16. -/
theorem test_packBytes : packBytes [0xAA#8, 0xBB#8, 0xCC#8] = 0xCCBBAA#256 := by decide

/-- The placed word is the first instruction run after reset (DESIGN CHOICE, log 12). -/
theorem test_withFetchWord :
    (State.reset.withFetchWord 16 0x1900).fetch = .ok (.dataLast 0x00#8) ∧
      decodeTableWord 16 0x1900 = some (.dataLast 0x00#8) ∧
      (State.reset.withFetchWord 16 0x2101).fetch = .ok (.chkFail 0x01#8) ∧
      decodeTableWord 16 0x4000 = none := by decide

/-! ### Witnesses for the obligations' hypotheses -/

/-- O12 at the first and the last entry of the register file. -/
theorem test_witness_DataNextRow :
    (awaitData 0x20#8 0#6).idx.toNat < 32 ∧ (awaitData 0x20#8 31#6).idx.toNat < 32 := by decide

/-- O13 at the first and the last entry of the register file. -/
theorem test_witness_DataLastRow :
    (awaitData 0x01#8 0#6).idx.toNat < 32 ∧ (awaitData 0x20#8 31#6).idx.toNat < 32 := by decide

/-- O16, on V-S2. -/
theorem test_witness_StepRunsTheDecodedRow :
    ∃ (s : State) (d : Drive) (q : List Drive) (i : Instr), s.inputs = d :: q ∧
      decode
          { win := s.regs.win, scanCnt := s.regs.scanCnt, segLen := s.regs.segLen, segType := s.regs.segType,
            payload := s.regs.payload, idx := s.regs.idx, syncBudget := d.budget }
          (s.regs.st ++ d.word) = .ok i :=
  ⟨given (awaitSync 0x00010203#32 3#16) 0x104#11 0#16, { word := 0x104#11, budget := 0#16 }, [], .syncMatch 0x04#8, rfl,
    by decide⟩

/-- O17 at reset and at the largest legal state tag. -/
theorem test_witness_EmptyQueueIsAnIdleStep :
    (State.reset.inputs = [] ∧ State.reset.regs.st.toNat ≤ 4) ∧ awaitChecksum.st.toNat ≤ 4 := by decide

/-- O18. -/
theorem test_witness_ResetStepFromAnyState :
    (0x400#11 : InputWord).getLsbD 10 = true ∧ (0x7FF#11 : InputWord).getLsbD 10 = true := by decide

/-- O19: the boundary of the refusal, `seg_len = idx`. -/
theorem test_witness_StepStops_refused :
    step (given (awaitData 0x02#8 2#6) 0x100#11 0#16) = .refused .noRow := rfl

/-- O19 and O20: the first `idx` outside the register file. -/
theorem test_witness_StepStops_fault :
    step (given (awaitData 0x21#8 32#6) 0x100#11 0#16) = .fault (.payloadRange 32#6) ∧
      32 ≤ (awaitData 0x21#8 32#6).idx.toNat := ⟨rfl, by decide⟩

/-- O21: a context in which the guard holds, for every constructor, boundary operands where the guard has one. -/
theorem test_witness_DecodeOfEncode :
    (Instr.reset 7#3 true true 0xFF#8).guardHolds (ctx Regs.reset 0#16) ∧
      (Instr.clear 7#3 true 0xFF#8).guardHolds (ctx Regs.reset 0#16) ∧
      (Instr.stRecover 5#3 true 0xFF#8).guardHolds (ctx Regs.reset 0#16) ∧
      (Instr.idle 4#3 0xFF#8).guardHolds (ctx Regs.reset 0#16) ∧
      (Instr.syncMatch 0x04#8).guardHolds (ctx (awaitSync 0x00010203#32 0#16) 1#16) ∧
      (Instr.syncShift 0x04#8).guardHolds (ctx Regs.reset 0#16) ∧
      (Instr.syncTimeout 0x04#8).guardHolds (ctx Regs.reset 1#16) ∧
      (Instr.lenAccept 0x20#8).guardHolds (ctx Regs.reset 0#16) ∧
      (Instr.lenReject 0x21#8).guardHolds (ctx Regs.reset 0#16) ∧
      (Instr.typeData 0x04#8).guardHolds (ctx awaitChecksum 0#16) ∧
      (Instr.typeNoData 0x04#8).guardHolds (ctx Regs.reset 0#16) ∧
      (Instr.dataNext 0x04#8).guardHolds (ctx (awaitData 0x20#8 30#6) 0#16) ∧
      (Instr.dataLast 0x04#8).guardHolds (ctx (awaitData 0x20#8 31#6) 0#16) ∧
      (Instr.chkPass 0x44#8).guardHolds (ctx awaitChecksum 0#16) ∧
      (Instr.chkFail 0x45#8).guardHolds (ctx awaitChecksum 0#16) := by decide

/-- O23: both sides of the exception (log 7), at `seg_len = idx + 1` and at `seg_len = idx`. -/
theorem test_witness_ExactlyOneRowApplies :
    (keySt 0x1900#14 = 3#3 ∧ wordKind (keyWord 0x1900#14) = .byte) ∧
      ¬ (ctx (awaitData 0x02#8 1#6) 0#16).segLen.toNat < (ctx (awaitData 0x02#8 1#6) 0#16).idx.toNat + 1 ∧
      (ctx (awaitData 0x02#8 2#6) 0#16).segLen.toNat < (ctx (awaitData 0x02#8 2#6) 0#16).idx.toNat + 1 := by decide

/-- O25, O48, O49, O50: data of 0 and of 32 bytes. -/
theorem test_witness_FrameLengths :
    ([] : List Byte).length ≤ 32 ∧ (List.replicate 32 0xFF#8).length ≤ 32 := by decide

/-- O27. -/
theorem test_witness_SegmentBus : ∃ (s : State) (g : Segment), s.event = .segment g :=
  ⟨{ State.reset with event := .segment (awaitChecksum.segment 0x44#8) }, awaitChecksum.segment 0x44#8, rfl⟩

/-- O29: a length of 32, and a register file that is zero at and beyond the length. -/
theorem test_witness_ChecksumIsTheByteSum :
    (0x20#8 : Byte).toNat ≤ 32 ∧ (0x03#8 : Byte).toNat ≤ 32 ∧
      ∀ i : Fin 32, (0x03#8 : Byte).toNat ≤ i.val → abc[i] = 0x00#8 := by decide

/-- O30: an execution that answers a next state, a register outside its row's list, and another payload entry. -/
theorem test_witness_RowsWriteOnlyTheirRegisters :
    (∃ t, exec (.dataNext 0x04#8) (given (awaitData 0x03#8 1#6) 0x104#11 0#16) = .next t) ∧
      RegName.st ∉ writtenBy (.dataNext 0x04#8) ∧ RegName.win ∉ writtenBy (.dataNext 0x04#8) ∧
      RegName.payload ∉ writtenBy (.syncMatch 0x04#8) ∧ RegName.idx ∉ writtenBy (.lenAccept 0x04#8) ∧
      RegName.scanCnt ∉ writtenBy (.typeData 0x04#8) ∧ RegName.segLen ∉ writtenBy (.typeData 0x04#8) ∧
      RegName.segType ∉ writtenBy (.dataLast 0x04#8) ∧ RegName.cntSeg ∉ writtenBy (.chkFail 0x04#8) ∧
      RegName.cntFraming ∉ writtenBy (.chkFail 0x04#8) ∧ RegName.cntChecksum ∉ writtenBy (.chkPass 0x04#8) ∧
      RegName.cntTimeout ∉ writtenBy (.clear 0#3 false 0x00#8) ∧ (0 : Fin 32).val ≠ (awaitData 0x03#8 1#6).idx.toNat :=
  ⟨⟨_, rfl⟩, by decide⟩

/-- O31 and O32: steps that answer a next state and raise each of the events, without and with `rst`. -/
theorem test_witness_EventsAndCounters :
    (∃ t, step (given awaitChecksum 0x144#11 0#16) = .next t ∧ t.event = .segment (awaitChecksum.segment 0x44#8)) ∧
      (∃ t, step (given (awaitSync 0#32 0#16) 0x1DD#11 1#16) = .next t ∧ t.event = .syncTimeout 1#16) ∧
      (∃ t, step (given { Regs.reset with st := 1#3 } 0x121#11 0#16) = .next t ∧ t.event = .framingError 0x21#8) ∧
      (∃ t, step (given awaitChecksum 0x145#11 0#16) = .next t ∧ t.event = .checksumMismatch 0x45#8 0x44#8) ∧
      (∃ t, step (given midFrame 0x7FF#11 0#16) = .next t) ∧ wordRst 0x7FF#11 = true ∧ wordRst 0x145#11 = false :=
  ⟨⟨_, rfl, rfl⟩, ⟨_, rfl, rfl⟩, ⟨_, rfl, rfl⟩, ⟨_, rfl, rfl⟩, ⟨_, rfl⟩, by decide⟩

/-- O33: a word and a tag for each clause, at the tags where clauses meet. -/
theorem test_witness_InputPriority :
    wordRst 0x7FF#11 = true ∧ (wordRst 0x3FF#11 = false ∧ wordClr 0x3FF#11 = true) ∧
      (wordRst 0x1FF#11 = false ∧ wordClr 0x1FF#11 = false ∧ wordValid 0x1FF#11 = true) ∧
      (wordRst 0x0FF#11 = false ∧ wordClr 0x0FF#11 = false ∧ wordValid 0x0FF#11 = false) ∧ 5 ≤ (5#3).toNat ∧
      (4#3).toNat ≤ 4 ∧
      (wordKind 0x104#11 = .byte ∧ windowAfter (awaitSync 0x00010203#32 3#16).win (wordData 0x104#11) = 0x01020304#32) := by
  decide

/-- O34: two words of each kind that is not a byte step, and a reserved tag. -/
theorem test_witness_DontCareBits :
    (wordKind 0x400#11 = wordKind 0x7FF#11 ∧ wordKind 0x400#11 ≠ .byte) ∧
      (wordKind 0x200#11 = wordKind 0x301#11 ∧ wordKind 0x200#11 ≠ .byte) ∧
      (wordKind 0x000#11 = wordKind 0x0AB#11 ∧ wordKind 0x000#11 ≠ .byte) ∧
      (5 ≤ (6#3).toNat ∧ wordRst 0x101#11 = false ∧ wordClr 0x101#11 = false ∧ wordRst 0x000#11 = false ∧
        wordClr 0x000#11 = false) := by decide

/-- O35: an AwaitData byte step, and an AwaitSync step that is no byte step. -/
theorem test_witness_BudgetIsReadOnlyInAwaitSync :
    ¬ ((awaitData 0x03#8 1#6).st = 0#3 ∧ wordKind 0x104#11 = .byte) ∧
      (∃ t, step ((given (awaitData 0x03#8 1#6) 0x104#11 0#16).withInputs [{ word := 0x104#11, budget := 7#16 }]) = .next t) ∧
      ¬ (Regs.reset.st = 0#3 ∧ wordKind 0x000#11 = .byte) ∧
      ∃ t, step (State.reset.withInputs [{ word := 0x000#11, budget := 7#16 }]) = .next t :=
  ⟨by decide, ⟨_, rfl⟩, by decide, ⟨_, rfl⟩⟩

/-- O37 and O52: the invariant in AwaitSync, AwaitLength, AwaitType, AwaitData and AwaitChecksum, the last full. -/
theorem test_witness_RegisterInvariant :
    (awaitSync 0x00010203#32 0xFFFF#16).Inv ∧ ({ Regs.reset with st := 1#3 } : Regs).Inv ∧
      ({ Regs.reset with st := 2#3, segLen := 0x20#8 } : Regs).Inv ∧ midFrame.Inv ∧ awaitChecksum.Inv ∧
      ({ awaitData 0x20#8 32#6 with st := 4#3, payload := Vector.replicate 32 0xFF#8 } : Regs).Inv :=
  ⟨by decide, by decide, by decide, by decide, by decide, by decide⟩

/-- O38: the smallest and the largest reserved tag, with registers that break the invariant. -/
theorem test_witness_ReservedStateTag :
    5 ≤ ({ awaitData 0xFF#8 63#6 with st := 5#3 } : Regs).st.toNat ∧
      5 ≤ ({ awaitData 0xFF#8 63#6 with st := 7#3 } : Regs).st.toNat := by decide

/-- O39, first clause: a count just below the budget, and a step that completes. -/
theorem test_witness_ScanCount :
    (given (awaitSync 0#32 3#16) 0x1DD#11 4#16).drive.budget ≠ 0#16 ∧
      (awaitSync 0#32 3#16).scanCnt.toNat < (given (awaitSync 0#32 3#16) 0x1DD#11 4#16).drive.budget.toNat ∧
      ∃ t, step (given (awaitSync 0#32 3#16) 0x1DD#11 4#16) = .next t := ⟨by decide, by decide, _, rfl⟩

/-- O39, second clause: a step from AwaitLength that enters AwaitSync. -/
theorem test_witness_ScanCount_entry :
    ∃ t, step (given { Regs.reset with st := 1#3 } 0x121#11 0#16) = .next t ∧
      (given { Regs.reset with st := 1#3 } 0x121#11 0#16).regs.st ≠ 0#3 ∧ t.regs.st = 0#3 := ⟨_, rfl, by decide, rfl⟩

/-- O40 and O51: a step that emits a Segment from a state that meets the invariant; six bytes after it. -/
theorem test_witness_EmittedSegments :
    awaitChecksum.Inv ∧
      (∃ t, step (given awaitChecksum 0x144#11 0#16) = .next t ∧ t.event = .segment (awaitChecksum.segment 0x44#8)) ∧
      (streamBytes (byteInputs 0#16 [0x01#8, 0x02#8, 0x03#8, 0x04#8, 0x00#8, 0x00#8])).length < 7 :=
  ⟨by decide, ⟨_, rfl, rfl⟩, by decide⟩

/-- O41. -/
theorem test_witness_RunsDoNotDepend :
    isRun [{ word := 0x400#11, budget := 0#16 }, { word := 0x155#11, budget := 0#16 }] = true ∧
      State.reset.stepNo = (given midFrame 0x000#11 0#16).stepNo := by decide

/-- O42. -/
theorem test_witness_Suspension :
    midFrame.st.toNat ≤ 4 ∧
      ∀ d ∈ ([{ word := 0x000#11, budget := 0#16 }, { word := 0x0AB#11, budget := 3#16 }] : List Drive),
        wordKind d.word = .idle := by decide

/-- V-CH's partition of two bytes: with and without an idle step between them. -/
def twoBytes (idle : Bool) : List Drive :=
  [{ word := 0x101#11, budget := 0#16 }] ++ (if idle then [{ word := 0x000#11, budget := 0#16 }] else []) ++
    [{ word := 0x102#11, budget := 0#16 }]

/-- O43. -/
theorem test_witness_ChunkingInvariance :
    State.reset.regs.Inv ∧ (∀ d ∈ twoBytes true, d.quiet ∧ d.budget = 0#16) ∧
      (∀ d ∈ twoBytes false, d.quiet ∧ d.budget = 0#16) ∧
      streamBytes (twoBytes true) = streamBytes (twoBytes false) := by decide

/-- O44, with four bytes and with two. -/
theorem test_witness_WindowHolds :
    State.reset.regs.Fresh ∧ (∀ d ∈ twoBytes true, d.quiet) ∧ ¬ holdsMarker (streamBytes (twoBytes true)) ∧
      ¬ holdsMarker (streamBytes (byteInputs 1#16 [0xAA#8, 0x01#8, 0x02#8, 0x03#8])) := by decide

/-- O45, on V-S11's bytes. -/
theorem test_witness_FirstMarker :
    State.reset.regs.Fresh ∧ (∀ d ∈ byteInputs 3#16 [0x01#8, 0x02#8, 0x03#8], d.quiet) ∧
      wordKind 0x104#11 = .byte ∧ wordData 0x104#11 = 0x04#8 ∧
      ¬ holdsMarker (streamBytes (byteInputs 3#16 [0x01#8, 0x02#8, 0x03#8])) ∧
      holdsMarker (streamBytes (byteInputs 3#16 [0x01#8, 0x02#8, 0x03#8]) ++ [0x04#8]) := by decide

/-- O46, on V-S13's bytes. -/
theorem test_witness_TimeoutCadence :
    State.reset.regs.Fresh ∧ (2#16 ≠ 0#16) ∧ ¬ holdsMarker [0xAA#8, 0xBB#8, 0xCC#8, 0xDD#8] := by decide

/-- O47 at LENGTH 0 and, for the length alone, at LENGTH 32. -/
theorem test_witness_FrameTakes :
    ({ Regs.reset with st := 1#3 } : Regs).Inv ∧ (0x00#8 : Byte).toNat ≤ 32 ∧ (0x20#8 : Byte).toNat ≤ 32 ∧
      ([0x05#8, 0x05#8] : List Byte).length = (0x00#8 : Byte).toNat + 2 ∧
      (List.replicate 34 0x00#8).length = (0x20#8 : Byte).toNat + 2 ∧
      (byteInputs 0#16 [0x00#8, 0x05#8, 0x05#8]).map Drive.word = [0x00#8, 0x05#8, 0x05#8].map byteWord := by decide

/-- O48: a state at an entry into AwaitSync with counters of its own. -/
theorem test_witness_EncodedFrameRoundTrip :
    ({ Regs.reset with cntSeg := 0xFFFF#16 } : Regs).Fresh ∧ ([0x10#8, 0x20#8] : List Byte).length ≤ 32 := by decide

/-- O49, on P1: garbage with a failed partial marker, then the frame. -/
theorem test_witness_ResyncAfterGarbage :
    State.reset.regs.Fresh ∧ ¬ holdsMarker [0x55#8, 0x01#8, 0x02#8, 0x05#8] ∧
      ([0x10#8, 0x20#8] : List Byte).length ≤ 32 ∧
      (∀ d ∈ byteInputs 0#16 ([0x55#8, 0x01#8, 0x02#8, 0x05#8] ++ encodeFrame 0x7E#8 [0x10#8, 0x20#8]), d.quiet) ∧
      streamBytes (byteInputs 0#16 ([0x55#8, 0x01#8, 0x02#8, 0x05#8] ++ encodeFrame 0x7E#8 [0x10#8, 0x20#8])) =
        [0x55#8, 0x01#8, 0x02#8, 0x05#8] ++ encodeFrame 0x7E#8 [0x10#8, 0x20#8] := by decide

/-- O50, on V-K3: the first flipped byte (TYPE) and the last (CHECKSUM). -/
theorem test_witness_SingleBitError :
    State.reset.regs.Fresh ∧ ([0x10#8, 0x20#8] : List Byte).length ≤ 32 ∧
      (5 ≤ 5 ∧ 5 < 7 + ([0x10#8, 0x20#8] : List Byte).length) ∧ 8 < 7 + ([0x10#8, 0x20#8] : List Byte).length ∧
      0 < 8 ∧ 7 < 8 := by decide

/-- O53: a FRAME with 33 data bytes (log 19). -/
theorem test_witness_StreamNotation : 32 < (List.replicate 33 0x00#8).length := by decide

/-- O53: a stream without a BUDGET statement, read under budget 3, and its inputs (30_encoding.md R83). -/
theorem test_witness_StreamNotation_budget :
    (∀ v, Stmt.budget v ∉ [Stmt.rst, Stmt.idle 1]) ∧
      streamInputs 3#16 [.rst, .idle 1] =
        some [{ word := 0x400#11, budget := 3#16 }, { word := 0x000#11, budget := 3#16 }] := ⟨by simp, by decide⟩

end Sys2Proof.Tests
end

