-- ==== Sys2Proof/Proofs/FrameSize.lean ====
section
/-! The size of a frame on the wire (30_encoding.md R71), from the byte sequence of R70. -/

namespace Sys2Proof.Machine

/-- Four marker bytes, LENGTH, TYPE, `L` data bytes and CHECKSUM; no bound on `L` is needed. -/
@[simp] theorem length_encodeFrame (type : Byte) (data : List Byte) :
    (encodeFrame type data).length = 7 + data.length := by
  simp only [encodeFrame, List.length_append, List.length_cons, List.length_nil]
  omega

/-- The frame body of 30_encoding.md R71: LENGTH, TYPE, DATA and CHECKSUM follow the marker. -/
theorem drop_marker_encodeFrame (type : Byte) (data : List Byte) :
    (encodeFrame type data).drop Config.markerLen =
      BitVec.ofNat 8 data.length :: type :: (data ++ [checksumFn (BitVec.ofNat 8 data.length) type data]) := rfl

/-- The size of that body, with no bound on `L`. -/
theorem length_drop_marker_encodeFrame (type : Byte) (data : List Byte) :
    ((encodeFrame type data).drop Config.markerLen).length = 3 + data.length := by
  simp only [drop_marker_encodeFrame, List.length_cons, List.length_append, List.length_nil]
  omega

/-- Settles O25: both sizes are exact for every `L`; the bounds follow from `L ≤ 32`. -/
theorem frameIsSevenPlusLengthBytes : Obligations.FrameIsSevenPlusLengthBytes := by
  intro type data hdata
  have hframe := length_encodeFrame type data
  have hbody : ((encodeFrame type data).drop 4).length = 3 + data.length :=
    length_drop_marker_encodeFrame type data
  refine ⟨hframe, ⟨?_, ?_⟩, hbody, ?_, ?_⟩ <;> omega

end Sys2Proof.Machine
end

