-- ==== Sys2Proof/Proofs/SyncRows.lean ====
section
/-! The sync-marker detector's rows (40_sync.md R101 to R103): the keys on their row of the opcode map, the guard that
tells them apart (R100), and their effect. -/

namespace Sys2Proof

section Selection

variable {c : GuardCtx} {k : Key} {i : Instr}

/-- The decoder answers an instruction only for the keys on its row of the opcode map (30_encoding.md R77). -/
theorem key_and_rowMask_of_decode (h : decode c k = .ok i) : k &&& rowMask i = rowMatch i := by
  obtain ⟨hk, hd⟩ | ⟨hk, hd⟩ | ⟨hrst, hclr, -, hd⟩ | ⟨hk, -, hd⟩ | ⟨hk, hs, hd⟩ | ⟨hk, hs, hd⟩ | ⟨hk, hs, hd⟩ |
      ⟨hk, hs, hd⟩ | ⟨hk, hs, hd⟩ := decode_rows c k <;>
    rw [hd] at h
  · cases h
    exact (key_and_0400 k).mpr ((wordKind_eq_reset_iff _).mp hk)
  · cases h
    exact (key_and_0600_clear k).mpr ((wordKind_eq_clear_iff _).mp hk)
  · cases h
    exact (key_and_0600_zero k).mpr ⟨hrst, hclr⟩
  · cases h
    exact (key_and_0700 k).mpr hk
  · have hkey := (key_and_3F00_sync k).mpr ⟨hs, hk⟩
    unfold decodeSync at h
    split_ifs at h <;> cases h <;> exact hkey
  · have hkey := (key_and_3F00_length k).mpr ⟨hs, hk⟩
    unfold decodeLength at h
    split_ifs at h <;> cases h <;> exact hkey
  · have hkey := (key_and_3F00_type k).mpr ⟨hs, hk⟩
    unfold decodeType at h
    split_ifs at h <;> cases h <;> exact hkey
  · have hkey := (key_and_3F00_data k).mpr ⟨hs, hk⟩
    unfold decodeData at h
    split_ifs at h <;> cases h <;> exact hkey
  · have hkey := (key_and_3F00_checksum k).mpr ⟨hs, hk⟩
    unfold decodeChecksum at h
    split_ifs at h <;> cases h <;> exact hkey

/-- A byte step in AwaitSync runs the detector's rows on the key's data bits. -/
theorem decode_sync (h : k &&& 0x3F00#14 = 0x0100#14) :
    decode c k = .ok (decodeSync c.win c.scanCnt c.syncBudget (k.extractLsb' 0 8)) := by
  obtain ⟨hs, hk⟩ := (key_and_3F00_sync k).mp h
  rw [decode_byte hk (by rw [hs]; decide), hs, decodeByte_zero, wordData_keyWord]

/-- A row of AwaitSync is selected exactly for the byte steps there for which the detector answers it. -/
theorem decode_eq_sync_iff (hmask : rowMask i = 0x3F00#14) (hmatch : rowMatch i = 0x0100#14) :
    decode c k = .ok i ↔
      k &&& 0x3F00#14 = 0x0100#14 ∧ decodeSync c.win c.scanCnt c.syncBudget (k.extractLsb' 0 8) = i := by
  constructor
  · intro h
    have hkey := key_and_rowMask_of_decode h
    rw [hmask, hmatch] at hkey
    rw [decode_sync hkey] at h
    exact ⟨hkey, Except.ok.inj h⟩
  · rintro ⟨hkey, hsync⟩
    rw [decode_sync hkey, hsync]

end Selection

section Guards

variable (win : BitVec 32) (scanCnt budget : BitVec 16) (d data : Byte)

/-- SYNC_MATCH is answered with the received byte, whatever the budget (40_sync.md R100, R101). -/
theorem decodeSync_eq_syncMatch_iff :
    decodeSync win scanCnt budget d = .syncMatch data ↔ data = d ∧ windowAfter win d = Config.markerWord := by
  obtain ⟨h, hw⟩ | ⟨h, hw, -⟩ | ⟨h, hw, -⟩ := decodeSync_cases win scanCnt budget d
  · simp [h, hw, eq_comm]
  · simp [h, hw]
  · simp [h, hw]

/-- SYNC_SHIFT is answered where neither the marker nor the budget is reached (40_sync.md R100, R102). -/
theorem decodeSync_eq_syncShift_iff :
    decodeSync win scanCnt budget d = .syncShift data ↔
      data = d ∧ windowAfter win d ≠ Config.markerWord ∧ budgetSpent budget scanCnt = false := by
  obtain ⟨h, hw⟩ | ⟨h, -, hb⟩ | ⟨h, hw, hb⟩ := decodeSync_cases win scanCnt budget d
  · simp [h, hw]
  · simp [h, hb]
  · simp [h, hw, hb, eq_comm]

/-- SYNC_TIMEOUT is answered where the budget is reached without a match (40_sync.md R100, R103). -/
theorem decodeSync_eq_syncTimeout_iff :
    decodeSync win scanCnt budget d = .syncTimeout data ↔
      data = d ∧ windowAfter win d ≠ Config.markerWord ∧ budgetSpent budget scanCnt = true := by
  obtain ⟨h, hw⟩ | ⟨h, hw, hb⟩ | ⟨h, -, hb⟩ := decodeSync_cases win scanCnt budget d
  · simp [h, hw]
  · simp [h, hw, hb, eq_comm]
  · simp [h, hb]

end Guards

end Sys2Proof

namespace Sys2Proof.Machine

/-- Settles O5: on the AwaitSync keys the detector answers SYNC_MATCH before it asks the budget. -/
theorem syncMatchRowEntersAwaitLength : Obligations.SyncMatchRowEntersAwaitLength := by
  refine ⟨fun c k data => ?_, fun _ _ => rfl⟩
  rw [decode_eq_sync_iff rfl rfl, decodeSync_eq_syncMatch_iff]
  exact and_congr_right fun _ => and_congr_right fun hdata => hdata ▸ Iff.rfl

/-- Settles O6: on the AwaitSync keys SYNC_SHIFT is what is left without a match and without a timeout. -/
theorem syncShiftRowShiftsTheWindow : Obligations.SyncShiftRowShiftsTheWindow := by
  refine ⟨fun c k data => ?_, fun _ _ => rfl⟩
  rw [decode_eq_sync_iff rfl rfl, decodeSync_eq_syncShift_iff]
  exact and_congr_right fun _ => and_congr_right fun hdata => hdata ▸ Iff.rfl

/-- Settles O7: on the AwaitSync keys SYNC_TIMEOUT needs a spent budget and no match; the counter's increment is addition
in 16 bits. -/
theorem syncTimeoutRowCountsAndKeepsTheWindow : Obligations.SyncTimeoutRowCountsAndKeepsTheWindow := by
  refine ⟨fun c k data => ?_, fun _ s => ?_⟩
  · rw [decode_eq_sync_iff rfl rfl, decodeSync_eq_syncTimeout_iff]
    exact and_congr_right fun _ => and_congr_right fun hdata => hdata ▸ Iff.rfl
  · rw [← bumpCounter_eq_add]
    rfl

end Sys2Proof.Machine
end

