-- ==== Sys2Proof/Proofs/FieldRows.lean ====
section
/-! The frame-field parser's rows (41_fields.md R121 to R126): the keys on their rows of the opcode map, the guard that
tells the two rows of a state apart, and their effect. -/

namespace Sys2Proof

section Selection

variable {c : GuardCtx} {k : Key} {i : Instr}

/-- A row of the byte steps of one legal state is selected exactly for the keys on the row for which `decodeByte` answers
it: on those keys the decoder asks nothing else, and it answers the row for no other key (30_encoding.md R77). -/
theorem decode_eq_ok_iff_decodeByte {st : BitVec 3} {m : Key} (hlegal : st.toNat ≤ 4)
    (hkeys : ∀ k : Key, k &&& 0x3F00#14 = m ↔ keySt k = st ∧ wordKind (keyWord k) = .byte)
    (hmask : rowMask i = 0x3F00#14) (hmatch : rowMatch i = m) :
    decode c k = .ok i ↔ k &&& 0x3F00#14 = m ∧ decodeByte c st (k.extractLsb' 0 8) = .ok i := by
  have hbyte (hkey : k &&& 0x3F00#14 = m) : decode c k = decodeByte c st (k.extractLsb' 0 8) := by
    obtain ⟨hs, hk⟩ := (hkeys k).mp hkey
    rw [decode_byte hk (by rwa [hs]), hs, wordData_keyWord]
  constructor
  · intro h
    have hkey := key_and_rowMask_of_decode h
    rw [hmask, hmatch] at hkey
    exact ⟨hkey, hbyte hkey ▸ h⟩
  · rintro ⟨hkey, h⟩
    rw [hbyte hkey, h]

/-- The rows of AwaitLength are told apart by `decodeLength`. -/
theorem decode_eq_length_iff (hmask : rowMask i = 0x3F00#14) (hmatch : rowMatch i = 0x0900#14) :
    decode c k = .ok i ↔ k &&& 0x3F00#14 = 0x0900#14 ∧ decodeLength (k.extractLsb' 0 8) = i := by
  rw [decode_eq_ok_iff_decodeByte (by decide) key_and_3F00_length hmask hmatch, decodeByte_one, Except.ok.injEq]

/-- The rows of AwaitType are told apart by `decodeType`. -/
theorem decode_eq_type_iff (hmask : rowMask i = 0x3F00#14) (hmatch : rowMatch i = 0x1100#14) :
    decode c k = .ok i ↔ k &&& 0x3F00#14 = 0x1100#14 ∧ decodeType c.segLen (k.extractLsb' 0 8) = i := by
  rw [decode_eq_ok_iff_decodeByte (by decide) key_and_3F00_type hmask hmatch, decodeByte_two, Except.ok.injEq]

/-- The rows of AwaitData are told apart by `decodeData`, which may answer none. -/
theorem decode_eq_data_iff (hmask : rowMask i = 0x3F00#14) (hmatch : rowMatch i = 0x1900#14) :
    decode c k = .ok i ↔ k &&& 0x3F00#14 = 0x1900#14 ∧ decodeData c.idx c.segLen (k.extractLsb' 0 8) = .ok i := by
  rw [decode_eq_ok_iff_decodeByte (by decide) key_and_3F00_data hmask hmatch, decodeByte_three]

end Selection

section Guards

variable (idx : BitVec 6) (segLen d data : Byte)

/-- LEN_ACCEPT is answered with a received LENGTH of at most 32 (41_fields.md R121). -/
theorem decodeLength_eq_lenAccept_iff : decodeLength d = .lenAccept data ↔ data = d ∧ d.toNat ≤ 32 := by
  by_cases h : d.toNat ≤ 32 <;> simp [decodeLength, h, eq_comm]

/-- LEN_REJECT is answered with a received LENGTH above 32 (41_fields.md R122). -/
theorem decodeLength_eq_lenReject_iff : decodeLength d = .lenReject data ↔ data = d ∧ 32 < d.toNat := by
  by_cases h : d.toNat ≤ 32
  · simp [decodeLength, h]
  · simp [decodeLength, h, Nat.lt_of_not_le h, eq_comm]

/-- TYPE_DATA is answered where data bytes follow (41_fields.md R123). -/
theorem decodeType_eq_typeData_iff : decodeType segLen d = .typeData data ↔ data = d ∧ segLen ≠ 0x00#8 := by
  by_cases h : segLen = 0x00#8 <;> simp [decodeType, h, eq_comm]

/-- TYPE_NODATA is answered where no data byte follows (41_fields.md R124). -/
theorem decodeType_eq_typeNoData_iff : decodeType segLen d = .typeNoData data ↔ data = d ∧ segLen = 0x00#8 := by
  by_cases h : segLen = 0x00#8 <;> simp [decodeType, h, eq_comm]

/-- DATA_NEXT is answered where a further data byte follows (41_fields.md R125). -/
theorem decodeData_eq_dataNext_iff :
    decodeData idx segLen d = .ok (.dataNext data) ↔ data = d ∧ idx.toNat + 1 < segLen.toNat := by
  by_cases hlt : idx.toNat + 1 < segLen.toNat
  · simp [decodeData, hlt, eq_comm]
  · by_cases heq : idx.toNat + 1 = segLen.toNat <;> simp [decodeData, hlt, heq]

/-- DATA_LAST is answered at the last data byte (41_fields.md R126). -/
theorem decodeData_eq_dataLast_iff :
    decodeData idx segLen d = .ok (.dataLast data) ↔ data = d ∧ idx.toNat + 1 = segLen.toNat := by
  by_cases hlt : idx.toNat + 1 < segLen.toNat
  · simp [decodeData, hlt, hlt.ne]
  · by_cases heq : idx.toNat + 1 = segLen.toNat <;> simp [decodeData, heq, hlt, eq_comm]

end Guards

end Sys2Proof

namespace Sys2Proof.Machine

/-- Storing a DATA byte at an entry of the register file; `idx` counts up in its 6 bits (41_fields.md R125, R126). -/
theorem State.takeData_eq_next (s : State) (st : BitVec 3) (data : Byte) (h : s.regs.idx.toNat < 32) :
    s.takeData st data =
      .next { s with
        regs := { s.regs with payload := s.regs.payload.set s.regs.idx.toNat data h, idx := s.regs.idx + 1#6, st := st },
        event := .none } := by
  rw [State.takeData_of_lt s data st h, idx_add_one]

/-- Settles O8: on the AwaitLength keys LEN_ACCEPT is answered up to LENGTH 32. -/
theorem lengthAcceptRowStoresTheLength : Obligations.LengthAcceptRowStoresTheLength := by
  refine ⟨fun c k data => ?_, fun _ _ => rfl⟩
  rw [decode_eq_length_iff rfl rfl, decodeLength_eq_lenAccept_iff]
  exact and_congr_right fun _ => and_congr_right fun hdata => hdata ▸ Iff.rfl

/-- Settles O9: on the AwaitLength keys LEN_REJECT is answered above LENGTH 32; the counter's increment is addition in
16 bits. -/
theorem lengthRejectRowAbortsWithFramingError : Obligations.LengthRejectRowAbortsWithFramingError := by
  refine ⟨fun c k data => ?_, fun _ s => ?_⟩
  · rw [decode_eq_length_iff rfl rfl, decodeLength_eq_lenReject_iff]
    exact and_congr_right fun _ => and_congr_right fun hdata => hdata ▸ Iff.rfl
  · rw [← bumpCounter_eq_add]
    rfl

/-- Settles O10: on the AwaitType keys TYPE_DATA is answered for a LENGTH other than 0. -/
theorem typeDataRowEntersAwaitData : Obligations.TypeDataRowEntersAwaitData := by
  refine ⟨fun c k data => ?_, fun _ _ => rfl⟩
  rw [decode_eq_type_iff rfl rfl, decodeType_eq_typeData_iff]

/-- Settles O11: on the AwaitType keys TYPE_NODATA is answered for LENGTH 0. -/
theorem typeNoDataRowSkipsAwaitData : Obligations.TypeNoDataRowSkipsAwaitData := by
  refine ⟨fun c k data => ?_, fun _ _ => rfl⟩
  rw [decode_eq_type_iff rfl rfl, decodeType_eq_typeNoData_iff]

/-- Settles O12: on the AwaitData keys DATA_NEXT is answered below the last byte; the store keeps the state tag. -/
theorem dataNextRowStoresTheByteAtIdx : Obligations.DataNextRowStoresTheByteAtIdx := by
  refine ⟨fun c k data => ?_, fun data s h => s.takeData_eq_next s.regs.st data h⟩
  rw [decode_eq_data_iff rfl rfl, decodeData_eq_dataNext_iff]

/-- Settles O13: on the AwaitData keys DATA_LAST is answered at the last byte; the store moves to AwaitChecksum. -/
theorem dataLastRowEntersAwaitChecksum : Obligations.DataLastRowEntersAwaitChecksum := by
  refine ⟨fun c k data => ?_, fun data s h => s.takeData_eq_next 4#3 data h⟩
  rw [decode_eq_data_iff rfl rfl, decodeData_eq_dataLast_iff]

end Sys2Proof.Machine
end

