-- ==== Sys2Proof/Proofs/ChecksumRows.lean ====
section
/-! The checksum as a sum over the register file (42_checksum.md R150, R151) and the checksum validator's rows (R152,
R153): the keys on their row of the opcode map, the guard that tells the two rows apart, and their effect. -/

namespace Sys2Proof

section Sums

variable {len type : Byte} (p : Payload)

/-- A register file's byte values in entry order. -/
theorem map_toNat_toList_eq_ofFn {n : Nat} (v : Vector Byte n) :
    v.toList.map BitVec.toNat = List.ofFn fun i : Fin n => v[i].toNat := by
  apply List.ext_getElem <;> simp

/-- The sum of the payload's first `n` bytes runs over the entries below `n`. -/
theorem sum_take_payload (n : Nat) :
    ((p.toList.take n).map BitVec.toNat).sum = ∑ i : Fin 32, if i.val < n then p[i].toNat else 0 := by
  rw [List.map_take, map_toNat_toList_eq_ofFn, List.sum_take_ofFn, Finset.sum_filter]

/-- In R150's domain the computed checksum is a sum over the entries below LENGTH. -/
theorem registerChecksum_toNat (h : len.toNat ≤ 32) :
    (registerChecksum len type p).toNat =
      (len.toNat + type.toNat + ∑ i : Fin 32, if i.val < len.toNat then p[i].toNat else 0) % 256 := by
  rw [registerChecksum_of_le h, checksumFn_toNat, sum_take_payload]

/-- Zero padding adds nothing: entries that hold 0x00 may be summed or left out (42_checksum.md R151). -/
theorem sum_below_eq_sum_of_zero_padding {n : Nat} (hpad : ∀ i : Fin 32, n ≤ i.val → p[i] = 0x00#8) :
    (∑ i : Fin 32, if i.val < n then p[i].toNat else 0) = ∑ i : Fin 32, p[i].toNat := by
  refine Finset.sum_congr rfl fun i _ => ite_eq_left_iff.mpr fun hge => ?_
  rw [hpad i (Nat.le_of_not_lt hge)]
  rfl

end Sums

section Rows

variable {c : GuardCtx} {k : Key} {i : Instr}

/-- The rows of AwaitChecksum are told apart by `decodeChecksum`. -/
theorem decode_eq_checksum_iff (hmask : rowMask i = 0x3F00#14) (hmatch : rowMatch i = 0x2100#14) :
    decode c k = .ok i ↔
      k &&& 0x3F00#14 = 0x2100#14 ∧
        decodeChecksum (registerChecksum c.segLen c.segType c.payload) (k.extractLsb' 0 8) = i := by
  rw [decode_eq_ok_iff_decodeByte (by decide) key_and_3F00_checksum hmask hmatch, decodeByte_four, Except.ok.injEq]

/-- CHK_PASS is answered with a received byte that equals the computed checksum (42_checksum.md R152). -/
theorem decodeChecksum_eq_chkPass_iff (chk d data : Byte) :
    decodeChecksum chk d = .chkPass data ↔ data = d ∧ data = chk := by
  by_cases h : d = chk
  · simp [decodeChecksum, h, eq_comm]
  · simpa [decodeChecksum, h] using fun hdata => hdata ▸ h

/-- CHK_FAIL is answered with a received byte that differs from the computed checksum (42_checksum.md R153). -/
theorem decodeChecksum_eq_chkFail_iff (chk d data : Byte) :
    decodeChecksum chk d = .chkFail data ↔ data = d ∧ data ≠ chk := by
  by_cases h : d = chk
  · simp [decodeChecksum, h]
  · rw [decodeChecksum, if_neg h, Instr.chkFail.injEq, eq_comm, iff_self_and]
    exact fun hdata => hdata ▸ h

end Rows

end Sys2Proof

namespace Sys2Proof.Machine

/-- Settles O29: the checksum's list sum is a sum over the entries below LENGTH, to which zero padding adds nothing. -/
theorem checksumIsTheByteSum : Obligations.ChecksumIsTheByteSum := by
  intro len type payload hlen
  refine ⟨registerChecksum_toNat payload hlen, fun hpad => ?_⟩
  rw [registerChecksum_toNat payload hlen, sum_below_eq_sum_of_zero_padding payload hpad]

/-- Settles O14: on the AwaitChecksum keys CHK_PASS is answered for the computed checksum; the counter's increment is
addition in 16 bits. -/
theorem checksumPassRowEmitsTheSegment : Obligations.ChecksumPassRowEmitsTheSegment := by
  refine ⟨fun c k data => ?_, fun _ s => ?_⟩
  · rw [decode_eq_checksum_iff rfl rfl, decodeChecksum_eq_chkPass_iff]
  · rw [← bumpCounter_eq_add]
    rfl

/-- Settles O15: on the AwaitChecksum keys CHK_FAIL is answered for every other byte; the counter's increment is
addition in 16 bits. -/
theorem checksumFailRowDiscardsTheSegment : Obligations.ChecksumFailRowDiscardsTheSegment := by
  refine ⟨fun c k data => ?_, fun _ s => ?_⟩
  · rw [decode_eq_checksum_iff rfl rfl, decodeChecksum_eq_chkFail_iff]
  · rw [← bumpCounter_eq_add]
    rfl

end Sys2Proof.Machine
end

