-- ==== Sys2Proof/Proofs/ControlRows.lean ====
section
/-! The control rows (43_control.md R170 to R173): the keys and state tags that select each, and their effect. -/

namespace Sys2Proof

section Selection

variable {c : GuardCtx} {k : Key} {i : Instr} {st : BitVec 3} {valid : Bool} {data : Byte}

/-- A byte step in a legal state answers no control row: the rows of byte steps are those with mask 0x3F00
(30_encoding.md R77). -/
theorem rowMask_of_decodeByte (h : decodeByte c st data = .ok i) : rowMask i = 0x3F00#14 := by
  unfold decodeByte at h
  split at h
  · unfold decodeSync at h
    split_ifs at h <;> cases h <;> rfl
  · unfold decodeLength at h
    split_ifs at h <;> cases h <;> rfl
  · unfold decodeType at h
    split_ifs at h <;> cases h <;> rfl
  · unfold decodeData at h
    split_ifs at h <;> cases h <;> rfl
  · unfold decodeChecksum at h
    split_ifs at h <;> cases h <;> rfl

/-- ST_RECOVER is answered for a reserved state tag only (43_control.md R173). -/
theorem reservedTag_of_decode_stRecover (h : decode c k = .ok (.stRecover st valid data)) : 5 ≤ (keySt k).toNat := by
  obtain ⟨-, hd⟩ | ⟨-, hd⟩ | ⟨-, -, hs, -⟩ | ⟨-, -, hd⟩ | ⟨-, -, hd⟩ := decode_cases c k
  · cases hd.symm.trans h
  · cases hd.symm.trans h
  · exact hs
  · cases hd.symm.trans h
  · cases rowMask_of_decodeByte (hd.symm.trans h)

/-- IDLE is answered for a legal state tag only (43_control.md R170): on its keys a reserved tag selects ST_RECOVER. -/
theorem legalTag_of_decode_idle (h : decode c k = .ok (.idle st data)) : (keySt k).toNat ≤ 4 := by
  by_contra hs
  have hk : wordKind (keyWord k) = .idle := (key_and_0700 k).mp (key_and_rowMask_of_decode h)
  obtain ⟨hrst, hclr, -⟩ := (wordKind_eq_idle_iff _).mp hk
  cases (decode_stRecover hrst hclr (by omega)).symm.trans h

end Selection

end Sys2Proof

namespace Sys2Proof.Machine

/-- Settles O1: `rst` is the first bit the decoder asks, and it is the whole of RESET's mask. -/
theorem resetRowRestoresEveryRegister : Obligations.ResetRowRestoresEveryRegister := by
  refine ⟨fun c k => ⟨?_, fun hkey => ?_⟩, fun _ _ _ _ _ => rfl⟩
  · rintro ⟨_, _, _, _, h⟩
    exact key_and_rowMask_of_decode h
  · exact ⟨_, _, _, _, decode_reset ((wordKind_eq_reset_iff _).mpr ((key_and_0400 k).mp hkey))⟩

/-- Settles O2: with `rst = 0` the decoder asks `clr` next, and the two bits are the whole of CLEAR's mask. -/
theorem clearRowResetsTheParserAndKeepsTheCounters : Obligations.ClearRowResetsTheParserAndKeepsTheCounters := by
  refine ⟨fun c k => ⟨?_, fun hkey => ?_⟩, fun _ _ _ _ => rfl⟩
  · rintro ⟨_, _, _, h⟩
    exact key_and_rowMask_of_decode h
  · exact ⟨_, _, _, decode_clear ((wordKind_eq_clear_iff _).mpr ((key_and_0600_clear k).mp hkey))⟩

/-- Settles O3: with `rst = clr = 0` the decoder asks for a reserved tag before it reads `valid`. -/
theorem recoverRowResetsTheParser : Obligations.RecoverRowResetsTheParser := by
  refine ⟨fun c k => ⟨?_, ?_⟩, fun _ _ _ _ => rfl⟩
  · rintro ⟨_, _, _, h⟩
    exact ⟨key_and_rowMask_of_decode h, reservedTag_of_decode_stRecover h⟩
  · rintro ⟨hkey, hs⟩
    obtain ⟨hrst, hclr⟩ := (key_and_0600_zero k).mp hkey
    exact ⟨_, _, _, decode_stRecover hrst hclr hs⟩

/-- Settles O4: IDLE is what is left with all three control bits 0 and a legal tag. -/
theorem idleRowKeepsEveryRegister : Obligations.IdleRowKeepsEveryRegister := by
  refine ⟨fun c k => ⟨?_, ?_⟩, fun _ _ _ => rfl⟩
  · rintro ⟨_, _, h⟩
    exact ⟨key_and_rowMask_of_decode h, legalTag_of_decode_idle h⟩
  · rintro ⟨hkey, hs⟩
    exact ⟨_, _, decode_idle ((key_and_0700 k).mp hkey) hs⟩

end Sys2Proof.Machine
end

