-- ==== Sys2Proof/Proofs/OpcodeMap.lean ====
section
/-! The decoder is the opcode map read backwards (30_encoding.md R77): it answers exactly the instruction whose guard holds
and whose encoding is the key, and the priority of the inputs (60_exceptions.md R206) follows. -/

namespace Sys2Proof

section DecodeEncode

variable {c : GuardCtx} {k : Key} {i : Instr} {st : BitVec 3} {d : Byte}

/-- On the key of a byte step in a legal state the decoder runs that state's rows. -/
theorem decode_keyOf_byteWord (hs : st.toNat ≤ 4) : decode c (keyOf st (byteWord d)) = decodeByte c st d := by
  rw [decode_byte] <;> simp [hs]

/-- Decoding is a left inverse of encoding wherever the row's guard holds. -/
theorem decode_encode (h : i.guardHolds c = true) : decode c (encode i) = .ok i := by
  cases i with
  | reset st clr valid data => simp [encode, decode]
  | clear st valid data => simp [encode, decode]
  | stRecover st valid data =>
    have hs : 5 ≤ st.toNat := of_decide_eq_true h
    simp [encode, decode, hs]
  | idle st data =>
    have hs : st.toNat ≤ 4 := of_decide_eq_true h
    simp [encode, decode, show ¬ 5 ≤ st.toNat by omega]
  | syncMatch data =>
    rw [encode, decode_keyOf_byteWord (by decide), decodeByte_zero, Except.ok.injEq, decodeSync_eq_syncMatch_iff]
    exact ⟨rfl, of_decide_eq_true h⟩
  | syncShift data =>
    rw [encode, decode_keyOf_byteWord (by decide), decodeByte_zero, Except.ok.injEq, decodeSync_eq_syncShift_iff]
    simpa [Instr.guardHolds] using h
  | syncTimeout data =>
    rw [encode, decode_keyOf_byteWord (by decide), decodeByte_zero, Except.ok.injEq, decodeSync_eq_syncTimeout_iff]
    simpa [Instr.guardHolds] using h
  | lenAccept data =>
    rw [encode, decode_keyOf_byteWord (by decide), decodeByte_one, Except.ok.injEq, decodeLength_eq_lenAccept_iff]
    exact ⟨rfl, of_decide_eq_true h⟩
  | lenReject data =>
    rw [encode, decode_keyOf_byteWord (by decide), decodeByte_one, Except.ok.injEq, decodeLength_eq_lenReject_iff]
    exact ⟨rfl, of_decide_eq_true h⟩
  | typeData data =>
    rw [encode, decode_keyOf_byteWord (by decide), decodeByte_two, Except.ok.injEq, decodeType_eq_typeData_iff]
    exact ⟨rfl, of_decide_eq_true h⟩
  | typeNoData data =>
    rw [encode, decode_keyOf_byteWord (by decide), decodeByte_two, Except.ok.injEq, decodeType_eq_typeNoData_iff]
    exact ⟨rfl, of_decide_eq_true h⟩
  | dataNext data =>
    rw [encode, decode_keyOf_byteWord (by decide), decodeByte_three, decodeData_eq_dataNext_iff]
    exact ⟨rfl, of_decide_eq_true h⟩
  | dataLast data =>
    rw [encode, decode_keyOf_byteWord (by decide), decodeByte_three, decodeData_eq_dataLast_iff]
    exact ⟨rfl, of_decide_eq_true h⟩
  | chkPass data =>
    rw [encode, decode_keyOf_byteWord (by decide), decodeByte_four, Except.ok.injEq, decodeChecksum_eq_chkPass_iff]
    exact ⟨rfl, of_decide_eq_true h⟩
  | chkFail data =>
    rw [encode, decode_keyOf_byteWord (by decide), decodeByte_four, Except.ok.injEq, decodeChecksum_eq_chkFail_iff]
    exact ⟨rfl, of_decide_eq_true h⟩

/-- A byte row is answered only under its guard, and it carries the state tag and the byte of its key. -/
theorem guardHolds_and_encode_of_decodeByte (hs : st.toNat ≤ 4) (h : decodeByte c st d = .ok i) :
    i.guardHolds c = true ∧ encode i = keyOf st (byteWord d) := by
  obtain rfl | rfl | rfl | rfl | rfl := legalTag_cases hs
  · obtain ⟨hd, hw⟩ | ⟨hd, hw, hb⟩ | ⟨hd, hw, hb⟩ := decodeSync_cases c.win c.scanCnt c.syncBudget d <;>
      rw [decodeByte_zero, hd] at h <;> cases h
    · simpa [Instr.guardHolds, encode] using hw
    · simpa [Instr.guardHolds, encode, hb] using hw
    · simpa [Instr.guardHolds, encode, hb] using hw
  · rw [decodeByte_one, decodeLength] at h
    split_ifs at h with hl <;> cases h
    · simpa [Instr.guardHolds, encode] using hl
    · simpa [Instr.guardHolds, encode] using hl
  · rw [decodeByte_two, decodeType] at h
    split_ifs at h with hl <;> cases h
    · simpa [Instr.guardHolds, encode] using hl
    · simpa [Instr.guardHolds, encode] using hl
  · rw [decodeByte_three, decodeData] at h
    split_ifs at h with hn hl <;> cases h
    · simpa [Instr.guardHolds, encode] using hn
    · simpa [Instr.guardHolds, encode] using hl
  · rw [decodeByte_four, decodeChecksum] at h
    split_ifs at h with hc <;> cases h
    · simpa [Instr.guardHolds, encode] using hc
    · simpa [Instr.guardHolds, encode] using hc

/-- The decoder answers exactly the instructions whose guard holds and whose encoding is the key. -/
theorem decode_eq_ok_iff : decode c k = .ok i ↔ i.guardHolds c = true ∧ encode i = k := by
  constructor
  · intro h
    obtain ⟨hk, hd⟩ | ⟨hk, hd⟩ | ⟨hrst, hclr, hs, hd⟩ | ⟨hk, hs, hd⟩ | ⟨hk, hs, hd⟩ := decode_cases c k <;>
      rw [hd] at h
    · cases h
      have hrst := (wordKind_eq_reset_iff _).mp hk
      exact ⟨rfl, ((key_eq_iff ..).mpr ⟨rfl, hrst, rfl, rfl, rfl⟩).symm⟩
    · cases h
      obtain ⟨hrst, hclr⟩ := (wordKind_eq_clear_iff _).mp hk
      exact ⟨rfl, ((key_eq_iff ..).mpr ⟨rfl, hrst, hclr, rfl, rfl⟩).symm⟩
    · cases h
      exact ⟨decide_eq_true hs, ((key_eq_iff ..).mpr ⟨rfl, hrst, hclr, rfl, rfl⟩).symm⟩
    · cases h
      obtain ⟨hrst, hclr, hvalid⟩ := (wordKind_eq_idle_iff _).mp hk
      exact ⟨decide_eq_true hs, ((key_eq_iff ..).mpr ⟨rfl, hrst, hclr, hvalid, rfl⟩).symm⟩
    · have hword := (wordKind_byte_iff _).mp hk
      obtain ⟨hguard, hkey⟩ := guardHolds_and_encode_of_decodeByte hs h
      rw [← hword, keyOf_fields] at hkey
      exact ⟨hguard, hkey⟩
  · rintro ⟨hguard, rfl⟩
    exact decode_encode hguard

/-- The row of the opcode map, written with mask, match and guard, is the decoder's answer. -/
theorem row_applies_iff :
    (k &&& rowMask i = rowMatch i ∧ i.guardHolds c = true ∧ encode i = k) ↔ decode c k = .ok i :=
  ⟨fun ⟨_, hguard⟩ => decode_eq_ok_iff.mpr hguard,
    fun h => ⟨key_and_rowMask_of_decode h, decode_eq_ok_iff.mp h⟩⟩

/-- The DATA rows leave out exactly the bytes past LENGTH (log 7). -/
theorem decodeData_eq_error_iff (idx : BitVec 6) (segLen : Byte) :
    (∀ i, decodeData idx segLen d ≠ .ok i) ↔ segLen.toNat < idx.toNat + 1 := by
  unfold decodeData
  split_ifs with hn hl
  · simpa using hn.le
  · simpa using hl.le
  · simpa using (by omega : segLen.toNat < idx.toNat + 1)

/-- The decoder answers no instruction exactly in the combination the DATA rows leave out (log 7). -/
theorem decode_no_row_iff :
    (∀ i, decode c k ≠ .ok i) ↔
      keySt k = 3#3 ∧ wordKind (keyWord k) = .byte ∧ c.segLen.toNat < c.idx.toNat + 1 := by
  obtain ⟨hk, hd⟩ | ⟨hk, hd⟩ | ⟨-, -, hs, hd⟩ | ⟨hk, -, hd⟩ | ⟨hk, hs, hd⟩ | ⟨hk, hs, hd⟩ | ⟨hk, hs, hd⟩ |
      ⟨hk, hs, hd⟩ | ⟨hk, hs, hd⟩ := decode_rows c k <;> rw [hd]
  · simp [hk]
  · simp [hk]
  · have htag : keySt k ≠ 3#3 := by
      rintro htag
      rw [htag] at hs
      exact absurd hs (by decide)
    simp [htag]
  · simp [hk]
  · simp [hs]
  · simp [hs]
  · simp [hs]
  · rw [decodeData_eq_error_iff]
    simp [hs, hk]
  · simp [hs]

end DecodeEncode

section Satisfiable

/-- Guard values of a register file at reset with no budget, to start from. -/
def blankCtx : GuardCtx :=
  { win := 0#32, scanCnt := 0#16, segLen := 0x00#8, segType := 0x00#8, payload := Payload.zero, idx := 0#6,
    syncBudget := 0#16 }

/-- One byte alone is no marker. -/
theorem windowAfter_zero_ne_marker (data : Byte) : windowAfter 0#32 data ≠ Config.markerWord := by
  rw [Ne, windowAfter_eq_marker_iff]
  simp

/-- The checksum of a frame without data is its TYPE (42_checksum.md R150). -/
theorem registerChecksum_zero_length (type : Byte) (p : Payload) : registerChecksum 0x00#8 type p = type := by
  apply BitVec.eq_of_toNat_eq
  rw [registerChecksum_of_le (by decide), checksumFn_toNat]
  simp [Nat.mod_eq_of_lt type.isLt]

/-- Guard values under which a well-formed instruction's guard holds. -/
def Instr.someCtx : Instr → GuardCtx
  | .syncMatch _ => { blankCtx with win := 0x00010203#32 }
  | .syncTimeout _ => { blankCtx with syncBudget := 1#16 }
  | .typeData _ => { blankCtx with segLen := 0x01#8 }
  | .dataNext _ => { blankCtx with segLen := 0x02#8 }
  | .dataLast _ => { blankCtx with segLen := 0x01#8 }
  | .chkPass data => { blankCtx with segType := data }
  | .chkFail data => { blankCtx with segType := data + 1#8 }
  | _ => blankCtx

/-- Every well-formed instruction applies somewhere. -/
theorem guardHolds_someCtx {i : Instr} (h : i.wellFormed = true) : i.guardHolds i.someCtx = true := by
  cases i with
  | reset st clr valid data => rfl
  | clear st valid data => rfl
  | stRecover st valid data => exact h
  | idle st data => exact h
  | syncMatch data =>
    obtain rfl : data = 0x04#8 := of_decide_eq_true h
    decide
  | syncShift data => simp [Instr.guardHolds, Instr.someCtx, blankCtx, windowAfter_zero_ne_marker]
  | syncTimeout data =>
    have hspent : budgetSpent 1#16 0#16 = true := by decide
    simp [Instr.guardHolds, Instr.someCtx, blankCtx, windowAfter_zero_ne_marker, hspent]
  | lenAccept data => exact h
  | lenReject data => exact h
  | typeData data => rfl
  | typeNoData data => rfl
  | dataNext data => rfl
  | dataLast data => rfl
  | chkPass data => simp [Instr.guardHolds, Instr.someCtx, blankCtx, registerChecksum_zero_length]
  | chkFail data => simp [Instr.guardHolds, Instr.someCtx, blankCtx, registerChecksum_zero_length]

/-- A guard asks at least what well-formedness asks of the key; for SYNC_MATCH the window asks for the byte (log 18). -/
theorem wellFormed_of_guardHolds {c : GuardCtx} {i : Instr} (h : i.guardHolds c = true) : i.wellFormed = true := by
  cases i with
  | syncMatch data =>
    obtain ⟨-, hdata⟩ := (windowAfter_eq_marker_iff _ _).mp (of_decide_eq_true h)
    exact decide_eq_true hdata
  | stRecover st valid data => exact h
  | idle st data => exact h
  | lenAccept data => exact h
  | lenReject data => exact h
  | _ => rfl

end Satisfiable

end Sys2Proof

namespace Sys2Proof.Machine

/-- Settles O21: the decoder inverts the encoder under the guard, row by row; `Instr.someCtx` is a context for each
well-formed instruction. -/
theorem decodeOfEncodeIsTheInstruction : Obligations.DecodeOfEncodeIsTheInstruction :=
  ⟨fun _ _ h => decode_encode h, fun i => ⟨fun h => ⟨i.someCtx, guardHolds_someCtx h⟩,
    fun ⟨_, h⟩ => wellFormed_of_guardHolds h⟩⟩

/-- Settles O22: mask and match follow from the encoding, so the guard and the encoding decide. -/
theorem opcodeMapSelectsTheRow : Obligations.OpcodeMapSelectsTheRow := fun _ _ _ => row_applies_iff.symm

/-- Settles O23: at most one row applies because the decoder is a function, and one does unless the DATA rows leave the
byte out. -/
theorem exactlyOneRowApplies : Obligations.ExactlyOneRowApplies := by
  intro c k
  simp only [row_applies_iff]
  refine ⟨fun h => ?_, decode_no_row_iff.mpr⟩
  obtain ⟨i, hi⟩ := not_forall_not.mp (decode_no_row_iff.not.mpr h)
  exact ⟨i, hi, fun j hj => Except.ok.inj (hj.symm.trans hi)⟩

/-- Settles O24: the spec's words, run through the decoder. -/
theorem specWordsDecodeToTheirRows : Obligations.SpecWordsDecodeToTheirRows := by
  unfold Obligations.SpecWordsDecodeToTheirRows
  decide

/-- Settles O33: each clause is the decoder's answer for that kind of input; the marker is asked before the budget. -/
theorem inputPriority : Obligations.InputPriority := by
  intro s w
  have hbyte (hk : wordKind w = .byte) (hs : s.regs.st.toNat ≤ 4) :
      s.fetch = decodeByte (s.regs.guardCtx s.drive.budget) s.regs.st (wordData w) := by
    rw [State.fetch, decode_byte] <;> simp [hs, hk, w]
  refine ⟨fun hrst => ⟨wordClr w, wordValid w, wordData w, ?_⟩, fun hrst hclr => ⟨wordValid w, wordData w, ?_⟩,
    fun hrst hclr hs => ⟨wordValid w, wordData w, ?_⟩, fun hrst hclr hs hvalid => ?_, fun hrst hclr hs hvalid => ?_,
    fun hk hs hmatch => ?_⟩
  · have hk := (wordKind_eq_reset_iff w).mpr hrst
    rw [State.fetch, decode_reset] <;> simp [hk, w]
  · have hk := (wordKind_eq_clear_iff w).mpr ⟨hrst, hclr⟩
    rw [State.fetch, decode_clear] <;> simp [hk, w]
  · rw [State.fetch, decode_stRecover] <;> simp [hrst, hclr, hs, w]
  · exact hbyte ((wordKind_eq_byte_iff w).mpr ⟨hrst, hclr, hvalid⟩) hs
  · have hk := (wordKind_eq_idle_iff w).mpr ⟨hrst, hclr, hvalid⟩
    rw [State.fetch, decode_idle] <;> simp [hk, hs, w]
  · rw [hbyte hk (by rw [hs]; decide), hs, decodeByte_zero, Except.ok.injEq, decodeSync_eq_syncMatch_iff]
    exact ⟨rfl, hmatch⟩

end Sys2Proof.Machine
end

