-- ==== Sys2Proof/Proofs/Steps.lean ====
section
/-! What a step does, kind of input by kind of input and state by state (00_scope.md R11), the statements on a single step
that follow, and where a step stops. -/

namespace Sys2Proof.Machine

section AfterStep

variable {b : BitVec 16} {r : Regs} {w : InputWord} {d : Byte}

theorem Regs.afterStep_of_reset (h : wordKind w = .reset) : r.afterStep b w = (Regs.reset, .none) := by
  simp [Regs.afterStep, h]

theorem Regs.afterStep_of_clear (h : wordKind w = .clear) : r.afterStep b w = (r.parserReset, .none) := by
  simp [Regs.afterStep, h]

theorem Regs.afterStep_of_idle (h : wordKind w = .idle) (hs : r.st.toNat ≤ 4) : r.afterStep b w = (r, .none) := by
  simp [Regs.afterStep, h, show ¬ 5 ≤ r.st.toNat by omega]

theorem Regs.afterStep_of_byte (h : wordKind w = .byte) (hs : r.st.toNat ≤ 4) :
    r.afterStep b w = r.afterByte b (wordData w) := by
  simp [Regs.afterStep, h, show ¬ 5 ≤ r.st.toNat by omega]

/-- A reserved tag recovers on every input without `rst` and `clr` (43_control.md R173). -/
theorem Regs.afterStep_of_reserved (h1 : wordRst w = false) (h2 : wordClr w = false) (hs : 5 ≤ r.st.toNat) :
    r.afterStep b w = (r.parserReset, .none) := by
  cases hv : wordValid w with
  | false => simp [Regs.afterStep, (wordKind_eq_idle_iff w).mpr ⟨h1, h2, hv⟩, hs]
  | true => simp [Regs.afterStep, (wordKind_eq_byte_iff w).mpr ⟨h1, h2, hv⟩, hs]

/-- Everything a step does to the registers, a byte step in a legal state apart. -/
theorem Regs.afterStep_cases (b : BitVec 16) (r : Regs) (w : InputWord) :
    (wordKind w = .reset ∧ r.afterStep b w = (Regs.reset, .none)) ∨
    (wordRst w = false ∧ (wordClr w = true ∨ 5 ≤ r.st.toNat) ∧ r.afterStep b w = (r.parserReset, .none)) ∨
    (wordKind w = .idle ∧ r.st.toNat ≤ 4 ∧ r.afterStep b w = (r, .none)) ∨
    (wordKind w = .byte ∧ r.st.toNat ≤ 4 ∧ r.afterStep b w = r.afterByte b (wordData w)) := by
  cases hk : wordKind w with
  | reset => exact .inl ⟨rfl, Regs.afterStep_of_reset hk⟩
  | clear =>
    obtain ⟨hrst, hclr⟩ := (wordKind_eq_clear_iff w).mp hk
    exact .inr (.inl ⟨hrst, .inl hclr, Regs.afterStep_of_clear hk⟩)
  | idle =>
    obtain ⟨hrst, hclr, -⟩ := (wordKind_eq_idle_iff w).mp hk
    by_cases hs : r.st.toNat ≤ 4
    · exact .inr (.inr (.inl ⟨rfl, hs, Regs.afterStep_of_idle hk hs⟩))
    · exact .inr (.inl ⟨hrst, .inr (by omega), Regs.afterStep_of_reserved hrst hclr (by omega)⟩)
  | byte =>
    obtain ⟨hrst, hclr, -⟩ := (wordKind_eq_byte_iff w).mp hk
    by_cases hs : r.st.toNat ≤ 4
    · exact .inr (.inr (.inr ⟨rfl, hs, Regs.afterStep_of_byte hk hs⟩))
    · exact .inr (.inl ⟨hrst, .inr (by omega), Regs.afterStep_of_reserved hrst hclr (by omega)⟩)

theorem Regs.afterByte_match (hs : r.st = 0#3) (hw : windowAfter r.win d = Config.markerWord) :
    r.afterByte b d = ({ r with st := 1#3, win := 0#32, scanCnt := 0#16 }, .none) := by
  rw [Regs.afterByte, if_pos hs, if_pos hw]

theorem Regs.afterByte_timeout (hs : r.st = 0#3) (hw : windowAfter r.win d ≠ Config.markerWord)
    (hb : budgetSpent b r.scanCnt = true) :
    r.afterByte b d =
      ({ r with win := windowAfter r.win d, scanCnt := 0#16, cntTimeout := r.cntTimeout + 1#16 },
        .syncTimeout (scanAfter r.scanCnt)) := by
  rw [Regs.afterByte, if_pos hs, if_neg hw, if_pos hb]

theorem Regs.afterByte_shift (hs : r.st = 0#3) (hw : windowAfter r.win d ≠ Config.markerWord)
    (hb : budgetSpent b r.scanCnt = false) :
    r.afterByte b d = ({ r with win := windowAfter r.win d, scanCnt := scanAfter r.scanCnt }, .none) := by
  rw [Regs.afterByte, if_pos hs, if_neg hw, if_neg (by simp [hb])]

theorem Regs.afterByte_accept (hs : r.st = 1#3) (hd : d.toNat ≤ 32) :
    r.afterByte b d = ({ r with segLen := d, st := 2#3 }, .none) := by
  simp [Regs.afterByte, hs, hd]

theorem Regs.afterByte_reject (hs : r.st = 1#3) (hd : 32 < d.toNat) :
    r.afterByte b d = ({ r.parserReset with cntFraming := r.cntFraming + 1#16 }, .framingError d) := by
  simp [Regs.afterByte, hs, Nat.not_le.mpr hd]

theorem Regs.afterByte_type (hs : r.st = 2#3) :
    r.afterByte b d =
      ({ r with segType := d, idx := 0#6, st := if r.segLen = 0x00#8 then 4#3 else 3#3 }, .none) := by
  simp [Regs.afterByte, hs]

theorem Regs.afterByte_data (hs : r.st = 3#3) (hi : r.idx.toNat < 32) :
    r.afterByte b d =
      ({ r with
          payload := r.payload.set r.idx.toNat d hi
          idx := r.idx + 1#6
          st := if r.idx.toNat + 1 < r.segLen.toNat then 3#3 else 4#3 }, .none) := by
  simp [Regs.afterByte, hs, hi]

theorem Regs.afterByte_pass (hs : r.st = 4#3) (hd : d = r.chk) :
    r.afterByte b d = ({ r.parserReset with cntSeg := r.cntSeg + 1#16 }, .segment (r.segment d)) := by
  simp [Regs.afterByte, hs, hd]

theorem Regs.afterByte_fail (hs : r.st = 4#3) (hd : d ≠ r.chk) :
    r.afterByte b d = ({ r.parserReset with cntChecksum := r.cntChecksum + 1#16 }, .checksumMismatch d r.chk) := by
  simp [Regs.afterByte, hs, hd]

/-- What a step can do to the registers and which event it raises: one constructor per row, with the guard that selects
it; CLEAR and ST_RECOVER do the same and share one. -/
inductive Regs.Moves (b : BitVec 16) (r : Regs) (w : InputWord) : Regs × Event → Prop where
  | reset (hrst : wordRst w = true) : Regs.Moves b r w (Regs.reset, .none)
  | abandon (hrst : wordRst w = false) (hdrop : wordClr w = true ∨ 5 ≤ r.st.toNat) :
      Regs.Moves b r w (r.parserReset, .none)
  | idle (hk : wordKind w = .idle) (hs : r.st.toNat ≤ 4) : Regs.Moves b r w (r, .none)
  | hit (hk : wordKind w = .byte) (hs : r.st = 0#3) (hw : windowAfter r.win (wordData w) = Config.markerWord) :
      Regs.Moves b r w ({ r with st := 1#3, win := 0#32, scanCnt := 0#16 }, .none)
  | timeout (hk : wordKind w = .byte) (hs : r.st = 0#3) (hw : windowAfter r.win (wordData w) ≠ Config.markerWord)
      (hb : budgetSpent b r.scanCnt = true) :
      Regs.Moves b r w
        ({ r with win := windowAfter r.win (wordData w), scanCnt := 0#16, cntTimeout := r.cntTimeout + 1#16 },
          .syncTimeout (scanAfter r.scanCnt))
  | shift (hk : wordKind w = .byte) (hs : r.st = 0#3) (hw : windowAfter r.win (wordData w) ≠ Config.markerWord)
      (hb : budgetSpent b r.scanCnt = false) :
      Regs.Moves b r w ({ r with win := windowAfter r.win (wordData w), scanCnt := scanAfter r.scanCnt }, .none)
  | accept (hk : wordKind w = .byte) (hs : r.st = 1#3) (hd : (wordData w).toNat ≤ 32) :
      Regs.Moves b r w ({ r with segLen := wordData w, st := 2#3 }, .none)
  | reject (hk : wordKind w = .byte) (hs : r.st = 1#3) (hd : 32 < (wordData w).toNat) :
      Regs.Moves b r w ({ r.parserReset with cntFraming := r.cntFraming + 1#16 }, .framingError (wordData w))
  | typed (hk : wordKind w = .byte) (hs : r.st = 2#3) :
      Regs.Moves b r w
        ({ r with segType := wordData w, idx := 0#6, st := if r.segLen = 0x00#8 then 4#3 else 3#3 }, .none)
  | data (hk : wordKind w = .byte) (hs : r.st = 3#3) (hl : r.idx.toNat + 1 ≤ r.segLen.toNat)
      (hi : r.idx.toNat < 32) :
      Regs.Moves b r w
        ({ r with
            payload := r.payload.set r.idx.toNat (wordData w) hi
            idx := r.idx + 1#6
            st := if r.idx.toNat + 1 < r.segLen.toNat then 3#3 else 4#3 }, .none)
  | pass (hk : wordKind w = .byte) (hs : r.st = 4#3) (hd : wordData w = r.chk) :
      Regs.Moves b r w ({ r.parserReset with cntSeg := r.cntSeg + 1#16 }, .segment (r.segment (wordData w)))
  | fail (hk : wordKind w = .byte) (hs : r.st = 4#3) (hd : wordData w ≠ r.chk) :
      Regs.Moves b r w
        ({ r.parserReset with cntChecksum := r.cntChecksum + 1#16 }, .checksumMismatch (wordData w) r.chk)

/-- Where an AwaitData byte has a row and an entry, `afterStep` is one of these moves. -/
theorem Regs.moves_afterStep (b : BitVec 16) (r : Regs) (w : InputWord)
    (hc : r.st = 3#3 → wordKind w = .byte → r.idx.toNat + 1 ≤ r.segLen.toNat ∧ r.idx.toNat < 32) :
    r.Moves b w (r.afterStep b w) := by
  obtain ⟨hk, he⟩ | ⟨hrst, hdrop, he⟩ | ⟨hk, hs, he⟩ | ⟨hk, hs, he⟩ := r.afterStep_cases b w <;> rw [he]
  · exact .reset ((wordKind_eq_reset_iff w).mp hk)
  · exact .abandon hrst hdrop
  · exact .idle hk hs
  · obtain hs | hs | hs | hs | hs := legalTag_cases hs
    · by_cases hw : windowAfter r.win (wordData w) = Config.markerWord
      · rw [Regs.afterByte_match hs hw]
        exact .hit hk hs hw
      · cases hb : budgetSpent b r.scanCnt with
        | false =>
          rw [Regs.afterByte_shift hs hw hb]
          exact .shift hk hs hw hb
        | true =>
          rw [Regs.afterByte_timeout hs hw hb]
          exact .timeout hk hs hw hb
    · by_cases hd : (wordData w).toNat ≤ 32
      · rw [Regs.afterByte_accept hs hd]
        exact .accept hk hs hd
      · rw [Regs.afterByte_reject hs (by omega)]
        exact .reject hk hs (by omega)
    · rw [Regs.afterByte_type hs]
      exact .typed hk hs
    · obtain ⟨hl, hi⟩ := hc hs hk
      rw [Regs.afterByte_data hs hi]
      exact .data hk hs hl hi
    · by_cases hd : wordData w = r.chk
      · rw [Regs.afterByte_pass hs hd]
        exact .pass hk hs hd
      · rw [Regs.afterByte_fail hs hd]
        exact .fail hk hs hd

end AfterStep

section Steps

variable {s t : State}

/-- A completed step is a move of the registers. -/
theorem step_moves (h : step s = .next t) :
    ∃ p, s.regs.Moves s.drive.budget s.drive.word p ∧ t = s.settled p := by
  obtain ⟨hc, ht⟩ := step_next h
  exact ⟨_, Regs.moves_afterStep _ _ _ hc, ht⟩

/-- A step whose input is no byte completes. -/
theorem State.dataCovered_of_not_byte (h : wordKind s.drive.word ≠ .byte) : s.DataCovered :=
  fun _ hk => absurd hk h

/-- A step from another state tag completes. -/
theorem State.dataCovered_of_st_ne (h : s.regs.st ≠ 3#3) : s.DataCovered := fun hs _ => absurd hs h

/-- A state that meets the invariant has a row and an entry for an AwaitData byte (10_state.md R39 items 2 and 3). -/
theorem State.dataCovered_of_inv (h : s.regs.Inv) : s.DataCovered := by
  obtain ⟨-, hlen, -, hdata, -⟩ := h
  intro hs _
  have := hdata hs
  omega

/-- The state after a step on the one input `d`, with nothing left queued. -/
def State.fed (s : State) (d : Drive) : State := (s.withInputs [d]).settled (s.regs.afterStep d.budget d.word)

@[simp] theorem State.fed_regs (d : Drive) : (s.fed d).regs = (s.regs.afterStep d.budget d.word).1 := rfl
@[simp] theorem State.fed_event (d : Drive) : (s.fed d).event = (s.regs.afterStep d.budget d.word).2 := rfl
@[simp] theorem State.fed_stepNo (d : Drive) : (s.fed d).stepNo = s.stepNo + 1 := rfl

/-- A step takes the head of the queue and leaves the rest (log 1). -/
theorem step_withInputs_cons {d : Drive} {q : List Drive} (hc : (s.withInputs (d :: q)).DataCovered) :
    step (s.withInputs (d :: q)) = .next ((s.fed d).withInputs q) := step_eq hc

/-- No row: the model's refusal (log 7). -/
theorem step_refused (hs : s.regs.st = 3#3) (hk : wordKind s.drive.word = .byte)
    (hl : s.regs.segLen.toNat < s.regs.idx.toNat + 1) : step s = .refused .noRow := by
  rw [step, fetch_data hs hk, decodeData, if_neg (by omega), if_neg (by omega)]

/-- A row but no entry: the model's fault (log 8). -/
theorem step_fault (hs : s.regs.st = 3#3) (hk : wordKind s.drive.word = .byte)
    (hl : s.regs.idx.toNat + 1 ≤ s.regs.segLen.toNat) (hi : 32 ≤ s.regs.idx.toNat) :
    step s = .fault (.payloadRange s.regs.idx) := by
  rw [step, fetch_data hs hk, decodeData]
  by_cases hn : s.regs.idx.toNat + 1 < s.regs.segLen.toNat
  · rw [if_pos hn]
    exact State.takeData_of_ge s.sampled _ _ hi
  · rw [if_neg hn, if_pos (by omega)]
    exact State.takeData_of_ge s.sampled _ _ hi

/-- A step completes, is refused, or faults, and the registers and the input say which. -/
theorem step_outcomes (s : State) :
    (s.DataCovered ∧ ∃ t, step s = .next t) ∨
    (s.regs.st = 3#3 ∧ wordKind s.drive.word = .byte ∧ s.regs.segLen.toNat < s.regs.idx.toNat + 1 ∧
      step s = .refused .noRow) ∨
    (s.regs.st = 3#3 ∧ wordKind s.drive.word = .byte ∧ s.regs.idx.toNat + 1 ≤ s.regs.segLen.toNat ∧
      32 ≤ s.regs.idx.toNat ∧ step s = .fault (.payloadRange s.regs.idx)) := by
  by_cases hs : s.regs.st = 3#3
  · by_cases hk : wordKind s.drive.word = .byte
    · by_cases hl : s.regs.segLen.toNat < s.regs.idx.toNat + 1
      · exact .inr (.inl ⟨hs, hk, hl, step_refused hs hk hl⟩)
      · by_cases hi : 32 ≤ s.regs.idx.toNat
        · exact .inr (.inr ⟨hs, hk, by omega, hi, step_fault hs hk (by omega) hi⟩)
        · have hc : s.DataCovered := fun _ _ => by omega
          exact .inl ⟨hc, _, step_eq hc⟩
    · have hc := State.dataCovered_of_not_byte hk
      exact .inl ⟨hc, _, step_eq hc⟩
  · have hc := State.dataCovered_of_st_ne hs
    exact .inl ⟨hc, _, step_eq hc⟩

end Steps

/-- Settles O16: the drive is the head of the queue, and the key and the guard values are `fetch`'s. -/
theorem stepRunsTheDecodedRow : Obligations.StepRunsTheDecodedRow := by
  intro s d q i hq hdec
  have hdrive := State.drive_of_cons s q d hq
  have hfetch : s.fetch = .ok i := by
    rw [State.fetch, hdrive]
    exact hdec
  rw [step_eq_exec hfetch, State.sampled, hdrive, hq]
  rfl

/-- Settles O17: an empty queue reads as an idle word, and an idle step keeps the registers. -/
theorem emptyQueueIsAnIdleStep : Obligations.EmptyQueueIsAnIdleStep := by
  intro s hq hs
  have hdrive := State.drive_of_nil s hq
  have hk : wordKind s.drive.word = .idle := by rw [hdrive, wordKind_idleWord]
  rw [step_eq (State.dataCovered_of_not_byte (by simp [hk])), Regs.afterStep_of_idle hk hs, State.settled,
    State.sampled, hdrive, hq]
  simp

/-- Settles O18: `rst` alone makes the step a reset step. -/
theorem resetStepFromAnyState : Obligations.ResetStepFromAnyState := by
  intro s w b q hrst
  have hk : wordKind w = .reset := (wordKind_eq_reset_iff w).mpr hrst
  have hc : State.DataCovered { s with inputs := { word := w, budget := b } :: q } :=
    State.dataCovered_of_not_byte (by simp [State.drive, hk])
  rw [step_eq hc]
  exact congrArg (fun p => Host.Outcome.next (State.settled _ p)) (Regs.afterStep_of_reset hk)

/-- Settles O19: the three outcomes of a step exclude each other, and so do what they ask of the registers. -/
theorem stepStopsOnlyOutsideTheInvariant : Obligations.StepStopsOnlyOutsideTheInvariant := by
  intro s
  obtain ⟨hc, t, h⟩ | ⟨hs, hk, hl, h⟩ | ⟨hs, hk, hl, hi, h⟩ := step_outcomes s
  · refine ⟨fun r => ⟨fun hr => (by simp [h] at hr), ?_⟩, fun f => ⟨fun hf => (by simp [h] at hf), ?_⟩⟩
    · rintro ⟨-, hs, hk, hl⟩
      have := hc hs hk
      omega
    · rintro ⟨-, hs, hk, -, hi⟩
      have := hc hs hk
      omega
  · refine ⟨fun r => ?_, fun f => ⟨fun hf => (by simp [h] at hf), ?_⟩⟩
    · simp [h, hs, hk, hl, eq_comm]
    · rintro ⟨-, -, -, hle, -⟩
      omega
  · refine ⟨fun r => ⟨fun hr => (by simp [h] at hr), ?_⟩, fun f => ?_⟩
    · rintro ⟨-, -, -, hlt⟩
      omega
    · simp [h, hs, hk, hl, hi, eq_comm]

/-- Settles O20: both DATA rows store before anything else. -/
theorem dataStoreOutsideTheFileFaults : Obligations.DataStoreOutsideTheFileFaults :=
  fun data s hi => ⟨State.takeData_of_ge s data s.regs.st hi, State.takeData_of_ge s data 4#3 hi⟩

end Sys2Proof.Machine
end

