-- ==== Sys2Proof/Proofs/Invariant.lean ====
section
/-! The register invariant (10_state.md R39) is met at reset and kept by every step, and what follows for the Segments a
step emits (42_checksum.md R156). -/

namespace Sys2Proof.Machine

section Inv

variable {b : BitVec 16} {r : Regs} {w : InputWord} {p : Regs × Event}

/-- ParserReset leads to registers that meet the invariant, whatever they were. -/
theorem Regs.inv_parserReset (r : Regs) : r.parserReset.Inv := by
  refine ⟨by simp, by simp, by simp, by simp, by simp, by simp, by simp, fun i _ => ?_, by simp⟩
  simp

theorem Regs.inv_reset : Regs.reset.Inv := Regs.inv_parserReset Regs.reset

/-- Registers at an entry into AwaitSync meet the invariant. -/
theorem Regs.Fresh.inv (h : r.Fresh) : r.Inv := by
  rw [h]
  exact r.inv_parserReset

/-- In AwaitSync only the window, the scan count and the counters are free. -/
theorem Regs.Inv.of_sync (h : r.Inv) (hs : r.st = 0#3) :
    r.segLen = 0x00#8 ∧ r.segType = 0x00#8 ∧ r.idx = 0#6 ∧ r.payload = Payload.zero := by
  obtain ⟨-, -, -, -, -, hsync, -⟩ := h
  exact hsync hs

/-- Outside AwaitSync the window and the scan count are 0. -/
theorem Regs.Inv.of_frame (h : r.Inv) (hs : r.st ≠ 0#3) : r.win = 0#32 ∧ r.scanCnt = 0#16 := by
  obtain ⟨-, -, -, -, -, -, hframe, -⟩ := h
  exact hframe hs

/-- Before the first DATA byte the payload register file is zero. -/
theorem Regs.Inv.payload_eq_zero (h : r.Inv) (hi : r.idx = 0#6) : r.payload = Payload.zero := by
  obtain ⟨-, -, -, -, -, -, -, hpad, -⟩ := h
  apply Vector.ext
  intro i hlt
  simpa using hpad ⟨i, hlt⟩ (by simp [hi])

/-- Storing a DATA byte keeps the padding beyond it at zero. -/
theorem padding_set {payload : Payload} {n : Nat} (hn : n < 32) (d : Byte)
    (hpad : ∀ i : Fin 32, n ≤ i.val → payload[i] = 0x00#8) :
    ∀ i : Fin 32, n + 1 ≤ i.val → (payload.set n d hn)[i] = 0x00#8 := by
  intro i hi
  have hget := hpad i (by omega)
  simp only [Fin.getElem_fin] at hget ⊢
  rw [Vector.getElem_set_ne _ _ (by omega), hget]

/-- `idx` counts up without wrapping inside the register file. -/
theorem idx_add_one_toNat {idx : BitVec 6} (h : idx.toNat < 32) : (idx + 1#6).toNat = idx.toNat + 1 := by
  rw [BitVec.toNat_add]
  simp only [BitVec.toNat_ofNat]
  omega

/-- Every move keeps the register invariant. -/
theorem Regs.Moves.keeps_inv (hm : r.Moves b w p) (h : r.Inv) : p.1.Inv := by
  cases hm with
  | reset hrst => exact Regs.inv_reset
  | abandon hrst hdrop => exact r.inv_parserReset
  | idle hk hs => exact h
  | hit hk hs hw =>
    obtain ⟨hlen, -, hidx, -⟩ := h.of_sync hs
    obtain ⟨-, -, -, -, -, -, -, hpad, -⟩ := h
    exact ⟨by simp, by simp [hlen], by simp [hidx], by simp, by simp, by simp, by simp, hpad, by simp [hidx]⟩
  | timeout hk hs hw hb =>
    obtain ⟨htag, hlen, hle, -, -, hsync, -, hpad, -⟩ := h
    exact ⟨htag, hlen, hle, by simp [hs], by simp [hs], hsync, by simp [hs], hpad, by simp [hs]⟩
  | shift hk hs hw hb =>
    obtain ⟨htag, hlen, hle, -, -, hsync, -, hpad, -⟩ := h
    exact ⟨htag, hlen, hle, by simp [hs], by simp [hs], hsync, by simp [hs], hpad, by simp [hs]⟩
  | accept hk hs hd =>
    obtain ⟨hwin, hscan⟩ := h.of_frame (by simp [hs])
    obtain ⟨-, -, -, -, -, -, -, hpad, hidx⟩ := h
    have hidx := hidx (.inl hs)
    exact ⟨by simp, hd, by simp [hidx], by simp, by simp, by simp, fun _ => ⟨hwin, hscan⟩, hpad, fun _ => hidx⟩
  | reject hk hs hd => exact r.inv_parserReset
  | typed hk hs =>
    obtain ⟨hwin, hscan⟩ := h.of_frame (by simp [hs])
    obtain ⟨-, hlen, -, -, -, -, -, hpad, hidx⟩ := h
    rw [hidx (.inr hs)] at hpad
    by_cases hzero : r.segLen = 0x00#8
    · simp only [hzero, if_true]
      exact ⟨by simp, by simp, by simp, by simp, by simp, by simp, fun _ => ⟨hwin, hscan⟩, hpad, by simp⟩
    · have hpos : 0 < r.segLen.toNat := by
        rw [← BitVec.toNat_inj] at hzero
        simpa [Nat.pos_iff_ne_zero] using hzero
      simp only [hzero, if_false]
      exact ⟨by simp, hlen, by simp, by simpa using hpos, by simp, by simp, fun _ => ⟨hwin, hscan⟩, hpad, by simp⟩
  | data hk hs hl hi =>
    obtain ⟨hwin, hscan⟩ := h.of_frame (by simp [hs])
    obtain ⟨-, hlen, -, -, -, -, -, hpad, -⟩ := h
    have hpad := padding_set hi (wordData w) hpad
    have hidx := idx_add_one_toNat hi
    by_cases hn : r.idx.toNat + 1 < r.segLen.toNat
    · simp only [hn, if_true]
      refine ⟨by simp, hlen, ?_, fun _ => ?_, by simp, by simp, fun _ => ⟨hwin, hscan⟩, ?_, by simp⟩
      · rwa [hidx]
      · rwa [hidx]
      · rwa [hidx]
    · simp only [hn, if_false]
      refine ⟨by simp, hlen, ?_, by simp, fun _ => ?_, by simp, fun _ => ⟨hwin, hscan⟩, ?_, by simp⟩
      · rwa [hidx]
      · rw [hidx]
        exact Nat.le_antisymm hl (Nat.not_lt.mp hn)
      · rwa [hidx]
  | pass hk hs hd => exact r.inv_parserReset
  | fail hk hs hd => exact r.inv_parserReset

/-- `afterStep` keeps the register invariant. -/
theorem Regs.Inv.afterStep (h : r.Inv) (b : BitVec 16) (w : InputWord) : (r.afterStep b w).1.Inv := by
  obtain ⟨-, hlen, -, hdata, -⟩ := id h
  refine (Regs.moves_afterStep b r w fun hs _ => ?_).keeps_inv h
  have := hdata hs
  omega

/-- A Segment from registers that meet the invariant is complete: AwaitChecksum holds all its data (10_state.md R39). -/
theorem Regs.Moves.segment_valid {g : Segment} (hm : r.Moves b w p) (h : r.Inv) (hg : p.2 = .segment g) : g.Valid := by
  cases hm with
  | pass hk hs hd =>
    cases hg
    obtain ⟨-, hlen, -, -, hfull, -, -, hpad, -⟩ := h
    refine ⟨hlen, hd.trans (registerChecksum_of_le hlen), fun i hi => hpad i ?_⟩
    rw [hfull hs]
    exact hi
  | _ => cases hg

end Inv

/-- Settles O36: the reset registers are those of a ParserReset. -/
theorem registerInvariantHoldsAtReset : Obligations.RegisterInvariantHoldsAtReset := Regs.inv_reset

/-- Settles O37: the invariant gives every AwaitData byte its row and its entry, and every move keeps the invariant. -/
theorem everyStepKeepsTheRegisterInvariant : Obligations.EveryStepKeepsTheRegisterInvariant :=
  fun _ h => ⟨_, step_eq (State.dataCovered_of_inv h), h.afterStep _ _⟩

/-- Settles O38: a reserved tag ends in ParserReset on every input but `rst`, which clears more. -/
theorem reservedStateTagRecoversInOneStep : Obligations.ReservedStateTagRecoversInOneStep := by
  intro s hs
  have hc : s.DataCovered := State.dataCovered_of_st_ne fun h => by
    rw [h] at hs
    exact absurd hs (by decide)
  refine ⟨_, step_eq hc, ?_⟩
  obtain ⟨-, he⟩ | ⟨-, -, he⟩ | ⟨-, hlegal, -⟩ | ⟨-, hlegal, -⟩ :=
    s.regs.afterStep_cases s.drive.budget s.drive.word
  · rw [he]
    exact ⟨rfl, Regs.inv_reset, rfl⟩
  · rw [he]
    exact ⟨rfl, s.regs.inv_parserReset, rfl⟩
  · omega
  · omega

/-- Settles O40: only a move by CHK_PASS emits a Segment, and it has compared the checksum. -/
theorem emittedSegmentsAreComplete : Obligations.EmittedSegmentsAreComplete := by
  intro s t g h hstep hg
  obtain ⟨p, hm, rfl⟩ := step_moves hstep
  exact hm.segment_valid h hg

end Sys2Proof.Machine
end

