-- ==== Sys2Proof/Proofs/StepEffects.lean ====
section
/-! What a step raises, counts, writes and reads: the events and their causes (60_exceptions.md R200 to R205), the status
counters (10_state.md R28, R29), the registers each row writes (10_state.md R20), and the bits no row reads
(30_encoding.md R75, 10_state.md R31). -/

namespace Sys2Proof.Machine

section Moves

variable {b : BitVec 16} {r : Regs} {w : InputWord} {p : Regs × Event}

/-- An input dropped with `clr` or for a reserved tag is no byte step in a legal state. -/
theorem not_byte_and_legal {n : BitVec 3} (hdrop : wordClr w = true ∨ 5 ≤ r.st.toNat) (hn : n.toNat ≤ 4) :
    ¬ (wordKind w = .byte ∧ r.st = n) := by
  rintro ⟨hk, rfl⟩
  obtain ⟨-, hclr, -⟩ := (wordKind_eq_byte_iff w).mp hk
  obtain hdrop | hdrop := hdrop
  · simp [hclr] at hdrop
  · omega

/-- A Segment comes from the right checksum byte in AwaitChecksum only. -/
theorem Regs.Moves.segment_iff (hm : r.Moves b w p) (g : Segment) :
    p.2 = .segment g ↔
      wordKind w = .byte ∧ r.st = 4#3 ∧ wordData w = r.chk ∧
        g = { length := r.segLen, type := r.segType, payload := r.payload, checksum := wordData w } := by
  cases hm with
  | reset hrst => simp [wordKind_eq_byte_iff, hrst]
  | abandon hrst hdrop =>
    have := not_byte_and_legal hdrop (show (4#3).toNat ≤ 4 by decide)
    simp only [reduceCtorEq, false_iff]
    tauto
  | pass hk hs hd => simp [hk, hs, hd, Regs.segment, eq_comm]
  | fail hk hs hd => simp [hd]
  | _ => simp [*]

/-- SyncTimeout comes from a byte in AwaitSync that spends the budget without a match only. -/
theorem Regs.Moves.syncTimeout_iff (hm : r.Moves b w p) (c : BitVec 16) :
    p.2 = .syncTimeout c ↔
      wordKind w = .byte ∧ r.st = 0#3 ∧ windowAfter r.win (wordData w) ≠ Config.markerWord ∧
        budgetSpent b r.scanCnt = true ∧ c = scanAfter r.scanCnt := by
  cases hm with
  | reset hrst => simp [wordKind_eq_byte_iff, hrst]
  | abandon hrst hdrop =>
    have := not_byte_and_legal hdrop (show (0#3).toNat ≤ 4 by decide)
    simp only [reduceCtorEq, false_iff]
    tauto
  | hit hk hs hw => simp [hw]
  | timeout hk hs hw hb => simp [hk, hs, hw, hb, eq_comm]
  | shift hk hs hw hb => simp [hb]
  | _ => simp [*]

/-- FramingError comes from a LENGTH byte above 32 only. -/
theorem Regs.Moves.framingError_iff (hm : r.Moves b w p) (d : Byte) :
    p.2 = .framingError d ↔ wordKind w = .byte ∧ r.st = 1#3 ∧ 32 < (wordData w).toNat ∧ d = wordData w := by
  cases hm with
  | reset hrst => simp [wordKind_eq_byte_iff, hrst]
  | abandon hrst hdrop =>
    have := not_byte_and_legal hdrop (show (1#3).toNat ≤ 4 by decide)
    simp only [reduceCtorEq, false_iff]
    tauto
  | accept hk hs hd => simp [Nat.not_lt.mpr hd]
  | reject hk hs hd => simp [hk, hs, hd, eq_comm]
  | _ => simp [*]

/-- ChecksumMismatch comes from a wrong checksum byte in AwaitChecksum only. -/
theorem Regs.Moves.checksumMismatch_iff (hm : r.Moves b w p) (received computed : Byte) :
    p.2 = .checksumMismatch received computed ↔
      wordKind w = .byte ∧ r.st = 4#3 ∧ wordData w ≠ r.chk ∧ received = wordData w ∧ computed = r.chk := by
  cases hm with
  | reset hrst => simp [wordKind_eq_byte_iff, hrst]
  | abandon hrst hdrop =>
    have := not_byte_and_legal hdrop (show (4#3).toNat ≤ 4 by decide)
    simp only [reduceCtorEq, false_iff]
    tauto
  | pass hk hs hd => simp [hd]
  | fail hk hs hd => simp [hk, hs, hd, eq_comm]
  | _ => simp [*]

/-- Every step but a reset step adds 1 to the counter of the event it raises and keeps the others. -/
theorem Regs.Moves.counters (hm : r.Moves b w p) (hrst : wordRst w = false) :
    p.1.cntSeg = (match p.2 with | .segment _ => r.cntSeg + 1#16 | _ => r.cntSeg) ∧
    p.1.cntFraming = (match p.2 with | .framingError _ => r.cntFraming + 1#16 | _ => r.cntFraming) ∧
    p.1.cntChecksum = (match p.2 with | .checksumMismatch _ _ => r.cntChecksum + 1#16 | _ => r.cntChecksum) ∧
    p.1.cntTimeout = (match p.2 with | .syncTimeout _ => r.cntTimeout + 1#16 | _ => r.cntTimeout) := by
  cases hm with
  | reset h => simp [hrst] at h
  | _ => exact ⟨rfl, rfl, rfl, rfl⟩

/-- A scan count below the budget stays below it: reaching it is a timeout, which restarts the count
(40_sync.md R103). -/
theorem Regs.Moves.scanCnt_lt_budget (hm : r.Moves b w p) (hb : b ≠ 0#16) (hlt : r.scanCnt.toNat < b.toNat) :
    p.1.scanCnt.toNat < b.toNat := by
  have hzero : (0#16).toNat < b.toNat := Nat.zero_lt_of_lt hlt
  cases hm with
  | shift hk hs hw hspent => exact ((budgetSpent_eq_false_iff _ _).mp hspent).resolve_left hb
  | reset hrst => exact hzero
  | abandon hrst hdrop => exact hzero
  | hit hk hs hw => exact hzero
  | timeout hk hs hw hspent => exact hzero
  | reject hk hs hd => exact hzero
  | pass hk hs hd => exact hzero
  | fail hk hs hd => exact hzero
  | _ => exact hlt

/-- Whatever enters AwaitSync from another state is a ParserReset (10_state.md R33). -/
theorem Regs.Moves.scanCnt_of_entry (hm : r.Moves b w p) (hs : r.st ≠ 0#3) (ht : p.1.st = 0#3) :
    p.1.scanCnt = 0#16 := by
  cases hm with
  | idle hk htag => exact absurd ht hs
  | timeout hk htag hw hb => exact absurd htag hs
  | shift hk htag hw hb => exact absurd htag hs
  | accept hk htag hd => simp at ht
  | typed hk htag => split_ifs at ht <;> simp at ht
  | data hk htag hl hi => split_ifs at ht <;> simp at ht
  | _ => rfl

end Moves

section Frame

/-- The two register files hold the same in the named register. -/
def Regs.agreeOn (r r' : Regs) : RegName → Prop
  | .st => r.st = r'.st
  | .win => r.win = r'.win
  | .scanCnt => r.scanCnt = r'.scanCnt
  | .segLen => r.segLen = r'.segLen
  | .segType => r.segType = r'.segType
  | .payload => r.payload = r'.payload
  | .idx => r.idx = r'.idx
  | .cntSeg => r.cntSeg = r'.cntSeg
  | .cntFraming => r.cntFraming = r'.cntFraming
  | .cntChecksum => r.cntChecksum = r'.cntChecksum
  | .cntTimeout => r.cntTimeout = r'.cntTimeout

variable {i : Instr} {s t : State}

/-- No row touches what the environment presents or the step number. -/
theorem exec_env (h : exec i s = .next t) :
    t.inputs = s.inputs ∧ t.syncBudget = s.syncBudget ∧ t.stepNo = s.stepNo := by
  cases i with
  | dataNext data =>
    obtain ⟨hi, rfl⟩ := State.takeData_cases (s := s) h
    exact ⟨rfl, rfl, rfl⟩
  | dataLast data =>
    obtain ⟨hi, rfl⟩ := State.takeData_cases (s := s) h
    exact ⟨rfl, rfl, rfl⟩
  | _ =>
    cases h
    exact ⟨rfl, rfl, rfl⟩

/-- A row keeps every register its rule does not list as written (10_state.md R20). -/
theorem exec_frame (h : exec i s = .next t) (n : RegName) : n ∉ writtenBy i → t.regs.agreeOn s.regs n := by
  cases i with
  | dataNext data =>
    obtain ⟨hi, rfl⟩ := State.takeData_cases (s := s) h
    cases n <;> simp [writtenBy, Regs.agreeOn]
  | dataLast data =>
    obtain ⟨hi, rfl⟩ := State.takeData_cases (s := s) h
    cases n <;> simp [writtenBy, Regs.agreeOn]
  | _ =>
    cases h
    cases n <;> simp [writtenBy, RegName.parserState, Regs.agreeOn]

/-- The DATA rows write no payload entry but entry `idx` (41_fields.md R125, R126). -/
theorem takeData_keeps_other_entries {st : BitVec 3} {data : Byte} (h : s.takeData st data = .next t) (j : Fin 32)
    (hj : j.val ≠ s.regs.idx.toNat) : t.regs.payload[j] = s.regs.payload[j] := by
  obtain ⟨hi, rfl⟩ := State.takeData_cases h
  exact Vector.getElem_set_ne hi j.isLt hj.symm

end Frame

section DontCare

variable {b b' : BitVec 16} {r : Regs} {w w' : InputWord}

/-- Outside byte steps only the kind of the word is read (30_encoding.md R75, R82). -/
theorem Regs.afterStep_eq_of_kind (hk : wordKind w = wordKind w') (hb : wordKind w ≠ .byte) :
    r.afterStep b w = r.afterStep b w' := by
  unfold Regs.afterStep
  rw [← hk]
  cases h : wordKind w with
  | byte => exact absurd h hb
  | _ => rfl

/-- Only the detector reads the budget (10_state.md R31). -/
theorem Regs.afterStep_budget (h : ¬ (r.st = 0#3 ∧ wordKind w = .byte)) : r.afterStep b w = r.afterStep b' w := by
  unfold Regs.afterStep
  cases hk : wordKind w with
  | byte =>
    have hs : r.st ≠ 0#3 := fun hs => h ⟨hs, hk⟩
    simp only [Regs.afterByte, hs, if_false]
  | _ => rfl

/-- Two inputs with the same effect on the registers and the same budget give the same step. -/
theorem step_withInputs_eq {s : State} {q : List Drive}
    (hc : (s.withInputs ({ word := w, budget := b } :: q)).DataCovered)
    (hc' : (s.withInputs ({ word := w', budget := b } :: q)).DataCovered)
    (h : s.regs.afterStep b w = s.regs.afterStep b w') :
    step (s.withInputs ({ word := w, budget := b } :: q)) =
      step (s.withInputs ({ word := w', budget := b } :: q)) := by
  rw [step_eq hc, step_eq hc']
  exact congrArg (fun p => Host.Outcome.next (State.settled _ p)) h

end DontCare

/-- Settles O31: each event is raised by one row, and its guard is the cause. -/
theorem eventsComeOnlyFromTheirCauses : Obligations.EventsComeOnlyFromTheirCauses := by
  intro s t h
  obtain ⟨p, hm, rfl⟩ := step_moves h
  exact ⟨hm.segment_iff, hm.syncTimeout_iff, hm.framingError_iff, hm.checksumMismatch_iff⟩

/-- Settles O32: a reset step leaves the reset registers, and every other move counts its own event. -/
theorem countersCountTheirEvents : Obligations.CountersCountTheirEvents := by
  intro s t h
  refine ⟨fun hrst => ?_, fun hrst => ?_⟩
  · obtain ⟨-, rfl⟩ := step_next h
    rw [Regs.afterStep_of_reset ((wordKind_eq_reset_iff _).mpr hrst)]
    exact ⟨rfl, rfl, rfl, rfl⟩
  · obtain ⟨p, hm, rfl⟩ := step_moves h
    exact hm.counters hrst

/-- Settles O30: the frame register by register. -/
theorem rowsWriteOnlyTheirRegisters : Obligations.RowsWriteOnlyTheirRegisters := by
  intro i s t h
  have hframe := exec_frame h
  refine ⟨exec_env h, hframe .st, hframe .win, hframe .scanCnt, hframe .segLen, hframe .segType, hframe .payload,
    hframe .idx, hframe .cntSeg, hframe .cntFraming, hframe .cntChecksum, hframe .cntTimeout, ?_⟩
  rintro data (rfl | rfl)
  · exact takeData_keeps_other_entries h
  · exact takeData_keeps_other_entries h

/-- Settles O34: outside byte steps in a legal state no bit beside the kind is read. -/
theorem dontCareBitsChangeNothing : Obligations.DontCareBitsChangeNothing := by
  refine ⟨fun s w w' b q hk hb => ?_, fun s w w' b q hs h1 h2 h1' h2' => ?_⟩
  · exact step_withInputs_eq (State.dataCovered_of_not_byte hb) (State.dataCovered_of_not_byte (hk ▸ hb))
      (Regs.afterStep_eq_of_kind hk hb)
  · have htag : s.regs.st ≠ 3#3 := by
      rintro htag
      rw [htag] at hs
      exact absurd hs (by decide)
    exact step_withInputs_eq (State.dataCovered_of_st_ne htag) (State.dataCovered_of_st_ne htag)
      ((Regs.afterStep_of_reserved h1 h2 hs).trans (Regs.afterStep_of_reserved h1' h2' hs).symm)

/-- Settles O35: another budget has the same effect on the registers, and the lines record it (log 3). -/
theorem budgetIsReadOnlyInAwaitSyncByteSteps : Obligations.BudgetIsReadOnlyInAwaitSyncByteSteps := by
  intro s t w b b' q hnot h
  obtain ⟨hc, rfl⟩ := step_next h
  have heffect : s.regs.afterStep b' w = s.regs.afterStep b w := Regs.afterStep_budget hnot
  rw [step_withInputs_cons (d := { word := w, budget := b' }) hc, State.fed, heffect]
  rfl

/-- Settles O39: both clauses by the move the step makes. -/
theorem scanCountStaysBelowAConstantBudget : Obligations.ScanCountStaysBelowAConstantBudget := by
  refine ⟨fun s t hb hlt h => ?_, fun s t h hs ht => ?_⟩
  · obtain ⟨p, hm, rfl⟩ := step_moves h
    exact hm.scanCnt_lt_budget hb hlt
  · obtain ⟨p, hm, rfl⟩ := step_moves h
    exact hm.scanCnt_of_entry hs ht

end Sys2Proof.Machine
end

