-- ==== Sys2Proof/Proofs/Outputs.lean ====
section
/-! The outputs and the detector's values as numbers: the event output table (30_encoding.md R78), the segment bus
(30_encoding.md R79), `w`, `c` and `to` (40_sync.md R100). -/

namespace Sys2Proof.Machine

section Bus

/-- Byte `i` of a packed list of bytes stands at bits `[8i+7 : 8i]`, as far as the bus is wide. -/
theorem extractLsb'_packBytes (bs : List Byte) (i : Nat) (hi : i < 32) :
    (packBytes bs).extractLsb' (8 * i) 8 = bs.getD i 0x00#8 := by
  induction bs generalizing i with
  | nil => simp [packBytes]
  | cons b bs ih =>
    apply BitVec.eq_of_getLsbD_eq
    intro j hj
    simp only [packBytes, BitVec.getLsbD_extractLsb', BitVec.getLsbD_or, BitVec.getLsbD_shiftLeft,
      BitVec.getLsbD_setWidth, hj, decide_true, Bool.true_and]
    cases i with
    | zero => simp [hj, show j < 256 by omega]
    | succ i =>
      have hbit := congrArg (fun x : Byte => x.getLsbD j) (ih i (by omega))
      simp only [BitVec.getLsbD_extractLsb', hj, decide_true, Bool.true_and] at hbit
      rw [show 8 * (i + 1) + j - 8 = 8 * i + j by omega, hbit, BitVec.getLsbD_of_ge b _ (by omega)]
      simp [show 8 * (i + 1) + j < 256 by omega, show 8 ≤ 8 * (i + 1) + j by omega]

variable {s : State} {g : Segment}

theorem State.segLenO_of_segment (h : s.event = .segment g) : s.segLenO = g.length := by simp [State.segLenO, h]
theorem State.segTypeO_of_segment (h : s.event = .segment g) : s.segTypeO = g.type := by simp [State.segTypeO, h]
theorem State.segChkO_of_segment (h : s.event = .segment g) : s.segChkO = g.checksum := by simp [State.segChkO, h]

theorem State.segPayloadO_of_segment (h : s.event = .segment g) : s.segPayloadO = packBytes g.payload.toList := by
  simp [State.segPayloadO, h]

end Bus

/-- Codes 5 to 7 are never driven (30_encoding.md R78). -/
theorem Event.code_le (e : Event) : e.code.toNat ≤ 4 := by
  cases e <;> simp [Event.code]

/-- Settles O26: the high and the low byte of `evt_info` are the two halves of an append. -/
theorem eventOutputsCarryCodeAndInfo : Obligations.EventOutputsCarryCodeAndInfo :=
  ⟨⟨rfl, rfl⟩, fun _ => ⟨rfl, rfl⟩, fun _ => ⟨rfl, rfl⟩,
    fun _ => ⟨rfl, BitVec.extractLsb'_append_eq_left, BitVec.extractLsb'_append_eq_right⟩,
    fun _ _ => ⟨rfl, BitVec.extractLsb'_append_eq_left, BitVec.extractLsb'_append_eq_right⟩,
    fun s => ⟨rfl, rfl, s.event.code_le⟩⟩

/-- Settles O27: the payload bus is the packed register file. -/
theorem segmentBusCarriesTheSegment : Obligations.SegmentBusCarriesTheSegment := by
  intro s g h
  refine ⟨s.segLenO_of_segment h, s.segTypeO_of_segment h, s.segChkO_of_segment h, fun i => ?_⟩
  rw [s.segPayloadO_of_segment h, extractLsb'_packBytes _ _ i.isLt]
  simp

/-- Settles O28: dropping the window's oldest byte before or after the shift is the same modulo 2^32. -/
theorem detectorComputesWindowCountAndTimeout : Obligations.DetectorComputesWindowCountAndTimeout := by
  intro win scanCnt budget data
  refine ⟨?_, scanAfter_toNat scanCnt, ?_⟩
  · rw [windowAfter_toNat]
    have := data.isLt
    omega
  · rw [budgetSpent_iff, scanAfter_toNat, Ne, ← BitVec.toNat_inj]
    rfl

end Sys2Proof.Machine
end

