-- ==== Sys2Proof/Proofs/Streams.lean ====
section
/-! The input words a stream of statements stands for (30_encoding.md R83 to R85). -/

namespace Sys2Proof.Machine

section Streams

variable {b : BitVec 16} {x : Stmt} {xs pre : List Stmt} {ds : List Drive}

/-- A stream stands for its first statement's words under the budget after that statement, then for the rest's. -/
theorem streamInputs_cons_eq_some_iff :
    streamInputs b (x :: xs) = some ds ↔
      ∃ ws es, x.words = some ws ∧ streamInputs (x.budgetAfter b) xs = some es ∧
        ds = ws.map (fun w => { word := w, budget := x.budgetAfter b }) ++ es := by
  rw [streamInputs]
  cases hw : x.words with
  | none => simp
  | some ws =>
    cases hs : streamInputs (x.budgetAfter b) xs with
    | none => simp
    | some es => simp [eq_comm]

/-- A stream whose rest stands for nothing stands for nothing. -/
theorem streamInputs_cons_of_rest_none (h : streamInputs (x.budgetAfter b) xs = none) :
    streamInputs b (x :: xs) = none := by
  rw [Option.eq_none_iff_forall_ne_some]
  intro ds hds
  obtain ⟨ws, es, -, hes, -⟩ := streamInputs_cons_eq_some_iff.mp hds
  simp [h] at hes

/-- Only a BUDGET statement changes the budget. -/
theorem budgetAfter_eq (h : ∀ v, x ≠ .budget v) : x.budgetAfter b = b := by
  cases x with
  | budget v => exact absurd rfl (h v)
  | _ => rfl

theorem streamInputs_budget_cons (b v : BitVec 16) (xs : List Stmt) :
    streamInputs b (.budget v :: xs) = streamInputs v xs := by
  cases h : streamInputs v xs <;> simp [streamInputs, Stmt.words, Stmt.budgetAfter, h]

/-- Without a BUDGET statement every input carries the budget the stream is read under. -/
theorem budget_of_mem_streamInputs (hx : ∀ v, Stmt.budget v ∉ xs) (h : streamInputs b xs = some ds) :
    ∀ d ∈ ds, d.budget = b := by
  induction xs generalizing ds with
  | nil =>
    cases h
    simp
  | cons x xs ih =>
    obtain ⟨ws, es, -, hes, rfl⟩ := streamInputs_cons_eq_some_iff.mp h
    have hkeep : x.budgetAfter b = b := budgetAfter_eq fun v hv => hx v (by simp [hv])
    rw [hkeep] at hes ⊢
    have hrest := ih (fun v hv => hx v (by simp [hv])) hes
    simp only [List.mem_append, List.mem_map]
    rintro d (⟨w, -, rfl⟩ | hd)
    · rfl
    · exact hrest d hd

/-- A FRAME above 32 bytes anywhere in a stream leaves it without input words (log 19). -/
theorem streamInputs_long_frame {type : Byte} {data : List Byte} (rest : List Stmt) (h : 32 < data.length) :
    streamInputs b (pre ++ .frame type data :: rest) = none := by
  induction pre generalizing b with
  | nil => simp [streamInputs, Stmt.words, Nat.not_le.mpr h]
  | cons x pre ih => exact streamInputs_cons_of_rest_none ih

end Streams

/-- Settles O53: the two examples are computed; the rest goes statement by statement through the stream. -/
theorem streamNotationGivesTheInputWords : Obligations.StreamNotationGivesTheInputWords :=
  ⟨by decide, by decide, streamInputs_budget_cons, fun _ _ _ hx h => budget_of_mem_streamInputs hx h,
    fun _ _ _ rest _ h => streamInputs_long_frame rest h⟩

end Sys2Proof.Machine
end

