-- ==== Sys2Proof/Proofs/Runs.lean ====
section
/-! Runs (70_reset_and_hazards.md R239): from registers that meet the invariant every run completes, with the events and the
last state as functions of the inputs. Idle steps change nothing (43_control.md R170, R174), and a run does not depend on
what was before its reset step (70_reset_and_hazards.md R231). -/

namespace Sys2Proof.Machine

section Runs

variable {s s' t : State} {d : Drive} {ds es q : List Drive}

/-- The state after the inputs `ds`, none left queued. -/
def State.fedAll (s : State) (ds : List Drive) : State := ds.foldl State.fed s

/-- What the steps on the inputs `ds` add to a run's observation. -/
def State.emitted : State → List Drive → List (Nat × Event)
  | _, [] => []
  | s, d :: ds => (s.fed d).observed ++ (s.fed d).emitted ds

@[simp] theorem State.fedAll_nil (s : State) : s.fedAll [] = s := rfl
@[simp] theorem State.fedAll_cons (s : State) (d : Drive) (ds : List Drive) :
    s.fedAll (d :: ds) = (s.fed d).fedAll ds := rfl
theorem State.fedAll_append (s : State) (ds es : List Drive) : s.fedAll (ds ++ es) = (s.fedAll ds).fedAll es :=
  List.foldl_append

@[simp] theorem State.emitted_nil (s : State) : s.emitted [] = [] := rfl
@[simp] theorem State.emitted_cons (s : State) (d : Drive) (ds : List Drive) :
    s.emitted (d :: ds) = (s.fed d).observed ++ (s.fed d).emitted ds := rfl

theorem State.emitted_append (s : State) (ds es : List Drive) :
    s.emitted (ds ++ es) = s.emitted ds ++ (s.fedAll ds).emitted es := by
  induction ds generalizing s with
  | nil => rfl
  | cons d ds ih => simp [ih]

theorem State.stepNo_fedAll (s : State) (ds : List Drive) : (s.fedAll ds).stepNo = s.stepNo + ds.length := by
  induction ds generalizing s with
  | nil => rfl
  | cons d ds ih =>
    simp only [State.fedAll_cons, ih, State.fed_stepNo, List.length_cons]
    omega

theorem State.observed_of_none (h : t.event = .none) : t.observed = [] := by simp [State.observed, h]

theorem State.observed_of_ne_none (h : t.event ≠ .none) : t.observed = [(t.stepNo, t.event)] := by
  simp [State.observed, h]

/-- What a step adds to the events of a run is its event, whatever its number. -/
theorem State.map_snd_observed (h : s.event = t.event) : s.observed.map Prod.snd = t.observed.map Prod.snd := by
  unfold State.observed
  rw [h]
  split_ifs <;> rfl

theorem State.inv_fed (h : s.regs.Inv) (d : Drive) : (s.fed d).regs.Inv := h.afterStep d.budget d.word

/-- Every run keeps the register invariant. -/
theorem State.inv_fedAll (h : s.regs.Inv) (ds : List Drive) : (s.fedAll ds).regs.Inv := by
  induction ds generalizing s with
  | nil => exact h
  | cons d ds ih => exact ih (State.inv_fed h d)

/-- One more step in front of an observation. -/
theorem observe_succ {n : Nat} {obs : List (Nat × Event)} (hc : (s.withInputs (d :: q)).DataCovered)
    (h : observe n ((s.fed d).withInputs q) = .next (obs, t)) :
    observe (n + 1) (s.withInputs (d :: q)) = .next ((s.fed d).observed ++ obs, t) := by
  rw [observe, step_withInputs_cons hc]
  simp only [h]
  rfl

/-- From registers that meet the invariant the steps on `ds` complete, with more inputs queued or not. -/
theorem observe_withInputs_append (h : s.regs.Inv) (ds q : List Drive) :
    observe ds.length (s.withInputs (ds ++ q)) = .next (s.emitted ds, (s.fedAll ds).withInputs q) := by
  induction ds generalizing s with
  | nil => rfl
  | cons d ds ih => exact observe_succ (State.dataCovered_of_inv h) (ih (State.inv_fed h d))

theorem observeInputs_eq (h : s.regs.Inv) (ds : List Drive) :
    observeInputs s ds = .next (s.emitted ds, (s.fedAll ds).withInputs []) := by
  simpa [observeInputs] using observe_withInputs_append h ds []

/-- A run completes for as long as nothing but idle steps comes, in any legal state. -/
theorem observeInputs_idle (hs : s.regs.st.toNat ≤ 4) (hd : ∀ d ∈ ds, wordKind d.word = .idle) :
    ∃ t, observeInputs s ds = .next ([], t) ∧ t.regs = s.regs := by
  induction ds generalizing s with
  | nil => exact ⟨s.withInputs [], rfl, rfl⟩
  | cons d ds ih =>
    have hk : wordKind d.word = .idle := hd d (by simp)
    have heffect : s.regs.afterStep d.budget d.word = (s.regs, .none) := Regs.afterStep_of_idle hk hs
    have hregs : (s.fed d).regs = s.regs := congrArg Prod.fst heffect
    have hevent : (s.fed d).event = .none := congrArg Prod.snd heffect
    obtain ⟨t, hrun, ht⟩ := ih (s := s.fed d) (by rwa [hregs]) fun e he => hd e (by simp [he])
    have hc : (s.withInputs (d :: ds)).DataCovered := State.dataCovered_of_not_byte (by simp [hk])
    refine ⟨t, ?_, ht.trans hregs⟩
    have hcons := observe_succ hc hrun
    rwa [State.observed_of_none hevent] at hcons

/-- After a reset step nothing is left of the state before it but the step number. -/
theorem State.fed_eq_of_reset (hd : wordRst d.word = true) (hn : s.stepNo = s'.stepNo) : s.fed d = s'.fed d := by
  have hk := (wordKind_eq_reset_iff d.word).mpr hd
  rw [State.fed, State.fed, Regs.afterStep_of_reset hk, Regs.afterStep_of_reset hk]
  simp [State.settled, State.sampled, hn, State.withInputs, State.drive]

end Runs

section Idle

variable {s s' : State} {d : Drive} {ds : List Drive} {b : BitVec 16}

/-- The input is a byte step. -/
def Drive.isByte (d : Drive) : Bool := wordKind d.word == .byte

/-- Without clear and reset steps there are byte and idle steps (43_control.md R174). -/
theorem Drive.quiet.cases (h : d.quiet) : wordKind d.word = .byte ∨ wordKind d.word = .idle := by
  obtain ⟨hrst, hclr⟩ := h
  cases hv : wordValid d.word with
  | true => exact .inl ((wordKind_eq_byte_iff _).mpr ⟨hrst, hclr, hv⟩)
  | false => exact .inr ((wordKind_eq_idle_iff _).mpr ⟨hrst, hclr, hv⟩)

/-- Idle steps may be left out: the events and the registers stay the same, only step numbers change. -/
theorem run_filter_isByte (h : s.regs.Inv) (hr : s.regs = s'.regs) (hq : ∀ d ∈ ds, d.quiet) :
    (s.emitted ds).map Prod.snd = (s'.emitted (ds.filter Drive.isByte)).map Prod.snd ∧
      (s.fedAll ds).regs = (s'.fedAll (ds.filter Drive.isByte)).regs := by
  induction ds generalizing s s' with
  | nil => exact ⟨rfl, hr⟩
  | cons d ds ih =>
    have hrest : ∀ e ∈ ds, e.quiet := fun e he => hq e (by simp [he])
    obtain hk | hk := Drive.quiet.cases (hq d (by simp))
    · have heffect : s.regs.afterStep d.budget d.word = s'.regs.afterStep d.budget d.word := by rw [hr]
      obtain ⟨hevents, hregs⟩ := ih (s := s.fed d) (s' := s'.fed d) (State.inv_fed h d) (congrArg Prod.fst heffect) hrest
      have hobs := State.map_snd_observed (s := s.fed d) (t := s'.fed d) (congrArg Prod.snd heffect)
      rw [List.filter_cons_of_pos (by simp [Drive.isByte, hk])]
      refine ⟨?_, hregs⟩
      simp only [State.emitted_cons, List.map_append, hobs, hevents]
    · have heffect : s.regs.afterStep d.budget d.word = (s.regs, .none) := Regs.afterStep_of_idle hk h.1
      obtain ⟨hevents, hregs⟩ :=
        ih (s := s.fed d) (State.inv_fed h d) ((congrArg Prod.fst heffect).trans hr) hrest
      have hobs : (s.fed d).observed = [] := State.observed_of_none (congrArg Prod.snd heffect)
      rw [List.filter_cons_of_neg (by simp [Drive.isByte, hk])]
      refine ⟨?_, hregs⟩
      simp only [State.emitted_cons, hobs, List.nil_append, hevents]

theorem streamBytes_cons_of_byte (hk : wordKind d.word = .byte) (ds : List Drive) :
    streamBytes (d :: ds) = wordData d.word :: streamBytes ds := by
  simp [streamBytes, wordByte, hk]

theorem streamBytes_cons_of_not_byte (hk : wordKind d.word ≠ .byte) (ds : List Drive) :
    streamBytes (d :: ds) = streamBytes ds := by
  have hbyte : wordByte d.word = none := by
    unfold wordByte
    cases h : wordKind d.word with
    | byte => exact absurd h hk
    | _ => rfl
  simp [streamBytes, hbyte]

/-- The byte steps of a sequence of inputs present the stream's bytes, one word each. -/
theorem map_word_filter_isByte (ds : List Drive) :
    (ds.filter Drive.isByte).map Drive.word = (streamBytes ds).map byteWord := by
  induction ds with
  | nil => rfl
  | cons d ds ih =>
    by_cases hk : wordKind d.word = .byte
    · rw [List.filter_cons_of_pos (by simp [Drive.isByte, hk]), streamBytes_cons_of_byte hk, List.map_cons,
        List.map_cons, ih, ← (wordKind_byte_iff _).mp hk]
    · rw [List.filter_cons_of_neg (by simp [Drive.isByte, hk]), streamBytes_cons_of_not_byte hk, ih]

/-- Words and one budget make the drives. -/
theorem eq_byteInputs {bs : List Byte} (hw : ds.map Drive.word = bs.map byteWord) (hb : ∀ d ∈ ds, d.budget = b) :
    ds = byteInputs b bs := by
  induction bs generalizing ds with
  | nil =>
    obtain rfl : ds = [] := List.map_eq_nil_iff.mp hw
    rfl
  | cons x bs ih =>
    obtain ⟨d, ds, rfl, hd, hds⟩ := List.map_eq_cons_iff.mp hw
    obtain rfl := ih hds fun e he => hb e (by simp [he])
    cases d with
    | mk w budget =>
      obtain rfl : w = byteWord x := hd
      obtain rfl : budget = b := hb _ List.mem_cons_self
      rfl

@[simp] theorem map_word_byteInputs (b : BitVec 16) (bs : List Byte) :
    (byteInputs b bs).map Drive.word = bs.map byteWord := by
  simp [byteInputs, Function.comp_def]

/-- Under one budget the byte steps of quiet inputs are those of the stream's bytes. -/
theorem filter_isByte_eq_byteInputs (hb : ∀ d ∈ ds, d.budget = b) :
    ds.filter Drive.isByte = byteInputs b (streamBytes ds) :=
  eq_byteInputs (map_word_filter_isByte ds) fun d hd => hb d (List.mem_of_mem_filter hd)

end Idle

/-- Settles O41: the reset step leaves two states the same, and the rest of the run is one function of it. -/
theorem runsDoNotDependOnTheStateBeforeReset : Obligations.RunsDoNotDependOnTheStateBeforeReset := by
  intro s s' ds hrun hn
  cases ds with
  | nil => cases hrun
  | cons d ds =>
    have hbyte : wordKind d.word ≠ .byte := by simp [(wordKind_eq_reset_iff d.word).mpr hrun]
    have hc (u : State) : (u.withInputs (d :: ds)).DataCovered := State.dataCovered_of_not_byte hbyte
    simp only [observeInputs, List.length_cons, observe, step_withInputs_cons (hc _), State.fed_eq_of_reset hrun hn]

/-- Settles O42: by induction over the idle steps. -/
theorem suspensionChangesNothing : Obligations.SuspensionChangesNothing := fun _ _ hs hd => observeInputs_idle hs hd

/-- Settles O43: both sequences come to the same byte steps when their idle steps are left out. -/
theorem chunkingInvariance : Obligations.ChunkingInvariance := by
  intro s b ds ds' h hq hq' hbytes
  obtain ⟨hevents, hregs⟩ := run_filter_isByte h rfl fun d hd => (hq d hd).1
  obtain ⟨hevents', hregs'⟩ := run_filter_isByte h rfl fun d hd => (hq' d hd).1
  have hfilter : ds.filter Drive.isByte = ds'.filter Drive.isByte := by
    rw [filter_isByte_eq_byteInputs fun d hd => (hq d hd).2, filter_isByte_eq_byteInputs fun d hd => (hq' d hd).2,
      hbytes]
  rw [hfilter] at hevents hregs
  exact ⟨_, _, _, _, observeInputs_eq h ds, observeInputs_eq h ds', hevents.trans hevents'.symm,
    hregs.trans hregs'.symm⟩

end Sys2Proof.Machine
end

