-- ==== Sys2Proof/Proofs/Detector.lean ====
section
/-! The detector over a stream (40_sync.md R104, R105, R107): the window after the bytes `bs` is `windowOf bs`, it is the
marker exactly when the bytes end in the marker, and until then only the window, the scan count and the timeout counter
change. -/

namespace Sys2Proof

section Window

variable {bs : List Byte} {b : Byte}

/-- The window after the bytes `bs` from an empty window (40_sync.md R104). -/
def windowOf (bs : List Byte) : BitVec 32 := bs.foldl windowAfter 0#32

@[simp] theorem windowOf_nil : windowOf [] = 0#32 := rfl

@[simp] theorem windowOf_append_singleton (bs : List Byte) (b : Byte) :
    windowOf (bs ++ [b]) = windowAfter (windowOf bs) b := by
  simp [windowOf]

/-- The received byte is the window's newest. -/
theorem extractLsb'_windowAfter_zero (win : BitVec 32) (d : Byte) : (windowAfter win d).extractLsb' 0 8 = d := by
  apply BitVec.eq_of_getLsbD_eq
  intro i hi
  simp [windowAfter, hi, show i < 32 by omega]

/-- Every other byte moves up by one place. -/
theorem extractLsb'_windowAfter_succ (win : BitVec 32) (d : Byte) {j : Nat} (hj : j < 3) :
    (windowAfter win d).extractLsb' (8 * (j + 1)) 8 = win.extractLsb' (8 * j) 8 := by
  apply BitVec.eq_of_getLsbD_eq
  intro i hi
  simp only [windowAfter, BitVec.getLsbD_extractLsb', BitVec.getLsbD_or, BitVec.getLsbD_shiftLeft,
    BitVec.getLsbD_setWidth]
  rw [BitVec.getLsbD_of_ge d _ (by omega), show 8 * (j + 1) + i - 8 = 8 * j + i by omega]
  simp [hi, show 8 * (j + 1) + i < 32 by omega, show 8 ≤ 8 * (j + 1) + i by omega]

/-- Byte `j` of the window is the `j`-th newest byte, 0x00 where there is none (40_sync.md R104). -/
theorem extractLsb'_windowOf (bs : List Byte) {j : Nat} (hj : j < 4) :
    (windowOf bs).extractLsb' (8 * j) 8 = bs.reverse.getD j 0x00#8 := by
  induction bs using List.reverseRecOn generalizing j with
  | nil => simp
  | append_singleton bs b ih =>
    rw [windowOf_append_singleton, List.reverse_append, List.reverse_singleton, List.singleton_append]
    cases j with
    | zero => exact extractLsb'_windowAfter_zero _ _
    | succ j => rw [extractLsb'_windowAfter_succ _ _ (by omega), ih (by omega), List.getD_cons_succ]

/-- The window is the marker exactly when the bytes end in the marker: no marker byte is 0x00, so four bytes are there. -/
theorem windowOf_eq_marker_iff (bs : List Byte) : windowOf bs = Config.markerWord ↔ Config.marker <:+ bs := by
  constructor
  · intro h
    have hbyte (j : Nat) (hj : j < 4) : bs.reverse.getD j 0x00#8 = Config.markerWord.extractLsb' (8 * j) 8 := by
      rw [← h, extractLsb'_windowOf bs hj]
    have h0 : bs.reverse.getD 0 0x00#8 = 0x04#8 := hbyte 0 (by decide)
    have h1 : bs.reverse.getD 1 0x00#8 = 0x03#8 := hbyte 1 (by decide)
    have h2 : bs.reverse.getD 2 0x00#8 = 0x02#8 := hbyte 2 (by decide)
    have h3 : bs.reverse.getD 3 0x00#8 = 0x01#8 := hbyte 3 (by decide)
    rw [← List.reverse_prefix]
    match hrev : bs.reverse with
    | [] => simp [hrev] at h0
    | [_] => simp [hrev] at h1
    | [_, _] => simp [hrev] at h2
    | [_, _, _] => simp [hrev] at h3
    | a :: b :: c :: d :: l =>
      simp only [hrev, List.getD_cons_zero, List.getD_cons_succ] at h0 h1 h2 h3
      rw [h0, h1, h2, h3]
      exact ⟨l, rfl⟩
  · rintro ⟨pre, rfl⟩
    rw [show pre ++ Config.marker = pre ++ [0x01#8] ++ [0x02#8] ++ [0x03#8] ++ [0x04#8] by simp]
    simp only [windowOf_append_singleton]
    rw [windowAfter_eq_marker_iff]
    simp only [windowAfter_toNat, BitVec.toNat_ofNat, and_true]
    omega

/-- One more byte completes a marker exactly if the window says so or one was complete before. -/
theorem holdsMarker_append_singleton :
    Machine.holdsMarker (bs ++ [b]) ↔ windowAfter (windowOf bs) b = Config.markerWord ∨ Machine.holdsMarker bs := by
  rw [Machine.holdsMarker, List.infix_concat_iff, ← windowOf_append_singleton, windowOf_eq_marker_iff]

end Window

end Sys2Proof

namespace Sys2Proof.Machine

section Scan

variable {s : State} {r₀ r : Regs} {bs : List Byte} {d : Drive} {ds : List Drive}

/-- The registers while the bytes `bs` since the entry `r₀` into AwaitSync hold no marker: the window is theirs, the scan
count and the timeout counter are free, everything else is as at the entry. -/
def Regs.Scanned (r₀ : Regs) (bs : List Byte) (r : Regs) : Prop :=
  r = { r₀ with win := windowOf bs, scanCnt := r.scanCnt, cntTimeout := r.cntTimeout }

theorem Regs.Fresh.st_eq (h : r.Fresh) : r.st = 0#3 := by rw [h]; rfl
theorem Regs.Fresh.win_eq (h : r.Fresh) : r.win = 0#32 := by rw [h]; rfl
theorem Regs.Fresh.scanCnt_eq (h : r.Fresh) : r.scanCnt = 0#16 := by rw [h]; rfl

theorem Regs.Fresh.scanned_nil (h : r.Fresh) : r.Scanned [] r := by
  rw [Regs.Scanned, windowOf_nil, ← h.win_eq]

theorem Regs.Scanned.st_eq (h : r₀.Scanned bs r) : r.st = r₀.st := by rw [h]
theorem Regs.Scanned.win_eq (h : r₀.Scanned bs r) : r.win = windowOf bs := by rw [h]

/-- A byte that completes no marker is scanned, with a timeout or without an event. -/
theorem Regs.Scanned.afterByte {b : BitVec 16} {x : Byte} (h : r₀.Scanned bs r) (hs : r₀.st = 0#3)
    (hw : windowAfter (windowOf bs) x ≠ Config.markerWord) :
    r₀.Scanned (bs ++ [x]) (r.afterByte b x).1 ∧
      ((r.afterByte b x).2 = .none ∨ ∃ c, (r.afterByte b x).2 = .syncTimeout c) := by
  have hst : r.st = 0#3 := h.st_eq.trans hs
  rw [← h.win_eq] at hw
  cases hb : budgetSpent b r.scanCnt with
  | false =>
    rw [Regs.afterByte_shift hst hw hb, Regs.Scanned, windowOf_append_singleton, ← h.win_eq]
    exact ⟨by rw [h], .inl rfl⟩
  | true =>
    rw [Regs.afterByte_timeout hst hw hb, Regs.Scanned, windowOf_append_singleton, ← h.win_eq]
    exact ⟨by rw [h], .inr ⟨_, rfl⟩⟩

/-- A byte that completes the marker leads to AwaitLength with everything but the timeout counter as at the entry. -/
theorem Regs.Scanned.afterByte_match {b : BitVec 16} {x : Byte} (h : r₀.Scanned bs r) (hf : r₀.Fresh)
    (hw : windowAfter (windowOf bs) x = Config.markerWord) :
    r.afterByte b x = ({ r₀ with st := 1#3, cntTimeout := r.cntTimeout }, .none) := by
  rw [Regs.afterByte_match (h.st_eq.trans hf.st_eq) (h.win_eq ▸ hw), ← hf.win_eq, ← hf.scanCnt_eq, h]

/-- The last input of a run, a byte: the registers and the event are those of `afterByte`. -/
theorem Regs.afterStep_byteWord {b : BitVec 16} {w : InputWord} {x : Byte} (hw : w = byteWord x)
    (hs : r.st.toNat ≤ 4) : r.afterStep b w = r.afterByte b x := by
  rw [hw, Regs.afterStep_of_byte (wordKind_byteWord x) hs, wordData_byteWord]

/-- Bytes that hold no marker are scanned, and the only events are timeouts. -/
theorem scanned_of_no_marker (hf : s.regs.Fresh) (hds : ds.map Drive.word = bs.map byteWord) (hm : ¬ holdsMarker bs) :
    s.regs.Scanned bs (s.fedAll ds).regs ∧ ∀ e ∈ s.emitted ds, ∃ c, e.2 = .syncTimeout c := by
  induction bs using List.reverseRecOn generalizing ds with
  | nil =>
    obtain rfl : ds = [] := List.map_eq_nil_iff.mp hds
    exact ⟨hf.scanned_nil, by simp⟩
  | append_singleton bs x ih =>
    rw [holdsMarker_append_singleton, not_or] at hm
    obtain ⟨hx, hm⟩ := hm
    rw [List.map_append] at hds
    obtain ⟨ds, d', rfl, hinit, hlast⟩ := List.map_eq_append_iff.mp hds
    obtain ⟨d, rfl, hd⟩ := List.map_eq_singleton_iff.mp hlast
    obtain ⟨hscan, hevents⟩ := ih hinit hm
    have hlegal : (s.fedAll ds).regs.st.toNat ≤ 4 := by simp [hscan.st_eq, hf.st_eq]
    have heffect := Regs.afterStep_byteWord (b := d.budget) hd hlegal
    obtain ⟨hnext, hevent⟩ := hscan.afterByte (b := d.budget) hf.st_eq hx
    rw [← heffect] at hnext hevent
    rw [State.fedAll_append, State.emitted_append]
    refine ⟨hnext, fun e he => ?_⟩
    obtain he | he := List.mem_append.mp he
    · exact hevents e he
    · obtain hnone | ⟨c, hc⟩ := hevent
      · simp [State.observed_of_none (t := (s.fedAll ds).fed d) hnone] at he
      · rw [State.emitted_cons, State.observed_of_ne_none (by simp [hc]), State.emitted_nil, List.append_nil,
          List.mem_singleton] at he
        exact ⟨c, by rw [he]; exact hc⟩

/-- The same with idle steps among the bytes. -/
theorem scanned_of_quiet (hf : s.regs.Fresh) (hq : ∀ d ∈ ds, d.quiet) (hm : ¬ holdsMarker (streamBytes ds)) :
    s.regs.Scanned (streamBytes ds) (s.fedAll ds).regs := by
  rw [(run_filter_isByte hf.inv rfl hq).2]
  exact (scanned_of_no_marker hf (map_word_filter_isByte ds) hm).1

end Scan

section Cadence

variable {s : State} {b : BitVec 16} {bs : List Byte}

/-- The events of the cadence: one SyncTimeout with count `b` at every `b`-th of the first `n` bytes (40_sync.md R107). -/
def timeouts (start : Nat) (b : BitVec 16) (n : Nat) : List (Nat × Event) :=
  (List.range (n / b.toNat)).map fun j => (start + (j + 1) * b.toNat, .syncTimeout b)

/-- The byte after the `n`-th completes another `B` bytes, or it adds to the count. -/
theorem succ_div_mod (n : Nat) {B : Nat} (hB : 0 < B) :
    (n % B + 1 = B ∧ (n + 1) / B = n / B + 1 ∧ (n + 1) % B = 0) ∨
      (n % B + 1 < B ∧ (n + 1) / B = n / B ∧ (n + 1) % B = n % B + 1) := by
  have hn := Nat.mod_add_div n B
  have hlt := Nat.mod_lt n hB
  by_cases hlast : n % B + 1 = B
  · exact .inl ⟨hlast, (Nat.div_mod_unique hB).mpr ⟨by rw [Nat.mul_succ]; omega, hB⟩⟩
  · have hlt' : n % B + 1 < B := by omega
    exact .inr ⟨hlt', (Nat.div_mod_unique hB).mpr ⟨by omega, hlt'⟩⟩

section Counting

variable {r : Regs} {x : Byte}

/-- Below a budget the scan count adds up without saturating. -/
theorem scanAfter_toNat_of_lt {c : BitVec 16} (h : c.toNat < b.toNat) : (scanAfter c).toNat = c.toNat + 1 := by
  have := b.isLt
  rw [scanAfter_toNat]
  omega

/-- The byte that reaches the budget raises SyncTimeout with the budget as its count. -/
theorem Regs.afterByte_of_scanCnt_last (hs : r.st = 0#3) (hw : windowAfter r.win x ≠ Config.markerWord)
    (h : r.scanCnt.toNat + 1 = b.toNat) :
    r.afterByte b x =
      ({ r with win := windowAfter r.win x, scanCnt := 0#16, cntTimeout := r.cntTimeout + 1#16 }, .syncTimeout b) := by
  have hcount : scanAfter r.scanCnt = b :=
    BitVec.eq_of_toNat_eq ((scanAfter_toNat_of_lt (b := b) (by omega)).trans h)
  have hb : b ≠ 0#16 := by
    rintro rfl
    simp at h
  rw [Regs.afterByte_timeout hs hw ((budgetSpent_iff _ _).mpr ⟨hb, by rw [hcount]⟩), hcount]

/-- A byte before that one is counted. -/
theorem Regs.afterByte_of_scanCnt_lt (hs : r.st = 0#3) (hw : windowAfter r.win x ≠ Config.markerWord)
    (h : r.scanCnt.toNat + 1 < b.toNat) :
    r.afterByte b x = ({ r with win := windowAfter r.win x, scanCnt := scanAfter r.scanCnt }, .none) := by
  have hcount := scanAfter_toNat_of_lt (b := b) (c := r.scanCnt) (by omega)
  exact Regs.afterByte_shift hs hw ((budgetSpent_eq_false_iff _ _).mpr (.inr (by omega)))

end Counting

/-- Under a constant budget the scan count is the number of bytes since the last timeout. -/
theorem timeout_cadence (hf : s.regs.Fresh) (hpos : 0 < b.toNat) (hm : ¬ holdsMarker bs) :
    (s.fedAll (byteInputs b bs)).regs.scanCnt.toNat = bs.length % b.toNat ∧
      (s.fedAll (byteInputs b bs)).regs.cntTimeout = s.regs.cntTimeout + BitVec.ofNat 16 (bs.length / b.toNat) ∧
      s.emitted (byteInputs b bs) = timeouts s.stepNo b bs.length := by
  induction bs using List.reverseRecOn with
  | nil => simp [byteInputs, timeouts, hf.scanCnt_eq]
  | append_singleton bs x ih =>
    rw [holdsMarker_append_singleton, not_or] at hm
    obtain ⟨hx, hm⟩ := hm
    obtain ⟨hscanCnt, hcnt, hevents⟩ := ih hm
    obtain ⟨hscan, -⟩ := scanned_of_no_marker hf (map_word_byteInputs b bs) hm
    have hst := hscan.st_eq.trans hf.st_eq
    have hlen : (s.fedAll (byteInputs b bs)).stepNo = s.stepNo + bs.length := by
      simp [State.stepNo_fedAll, byteInputs]
    have hinputs : byteInputs b (bs ++ [x]) = byteInputs b bs ++ [{ word := byteWord x, budget := b }] := by
      simp [byteInputs]
    rw [hinputs, State.fedAll_append, State.emitted_append, hevents, List.length_append, List.length_singleton]
    generalize s.fedAll (byteInputs b bs) = u at *
    have heffect : u.regs.afterStep b (byteWord x) = u.regs.afterByte b x :=
      Regs.afterStep_byteWord rfl (by simp [hst])
    have hwin : windowAfter u.regs.win x ≠ Config.markerWord := hscan.win_eq ▸ hx
    obtain ⟨hfull, hdiv, hmod⟩ | ⟨hpart, hdiv, hmod⟩ := succ_div_mod bs.length hpos
    · rw [Regs.afterByte_of_scanCnt_last hst hwin (by rwa [hscanCnt])] at heffect
      have hnumber : u.stepNo + 1 = s.stepNo + (bs.length / b.toNat + 1) * b.toNat := by
        have := Nat.mod_add_div bs.length b.toNat
        rw [hlen, Nat.add_one_mul, Nat.mul_comm]
        omega
      refine ⟨by simp [heffect, hmod], ?_, ?_⟩
      · simp [heffect, hcnt, hdiv, BitVec.ofNat_add, BitVec.add_assoc]
      · simp [State.observed, heffect, hnumber, timeouts, hdiv, List.range_succ]
    · rw [Regs.afterByte_of_scanCnt_lt hst hwin (by rwa [hscanCnt])] at heffect
      have hcount := scanAfter_toNat_of_lt (b := b) (c := u.regs.scanCnt) (by omega)
      refine ⟨by simp [heffect, hcount, hscanCnt, hmod], ?_, ?_⟩
      · simp [heffect, hcnt, hdiv]
      · simp [State.observed, heffect, timeouts, hdiv]

end Cadence

/-- Settles O44: the window of a scanned stream, byte by byte. -/
theorem windowHoldsTheLastFourBytes : Obligations.WindowHoldsTheLastFourBytes := by
  intro s ds hf hq hm
  have hscan := scanned_of_quiet hf hq hm
  refine ⟨_, _, observeInputs_eq hf.inv ds, hscan.st_eq.trans hf.st_eq, fun j => ?_⟩
  rw [State.withInputs_regs, hscan.win_eq, extractLsb'_windowOf _ j.isLt]

/-- Settles O45: the window of the scanned stream completes the marker with the byte. -/
theorem firstMarkerOccurrenceIsMatched : Obligations.FirstMarkerOccurrenceIsMatched := by
  rintro s ds d _ hf hq hk rfl hm hm'
  have hscan := scanned_of_quiet hf hq hm
  have hw := (holdsMarker_append_singleton.mp hm').resolve_right hm
  have heffect : (s.fedAll ds).regs.afterStep d.budget d.word = _ :=
    (Regs.afterStep_of_byte hk (by simp [hscan.st_eq, hf.st_eq])).trans (hscan.afterByte_match hf hw)
  refine ⟨_, _, observeInputs_eq hf.inv (ds ++ [d]), ?_⟩
  rw [State.fedAll_append]
  simp [heffect, hf.win_eq, hf.scanCnt_eq]

/-- Settles O46: the cadence by induction over the bytes, the state tag by the scan. -/
theorem timeoutCadence : Obligations.TimeoutCadence := by
  intro s b bs hf hb hm
  have hpos : 0 < b.toNat := Nat.pos_of_ne_zero fun h => hb (BitVec.eq_of_toNat_eq h)
  obtain ⟨-, hcnt, hevents⟩ := timeout_cadence hf hpos hm
  obtain ⟨hscan, -⟩ := scanned_of_no_marker hf (map_word_byteInputs b bs) hm
  refine ⟨(s.fedAll (byteInputs b bs)).withInputs [], ?_, hscan.st_eq.trans hf.st_eq, hcnt⟩
  rw [observeInputs_eq hf.inv, hevents]
  rfl

end Sys2Proof.Machine
end

