-- ==== Sys2Proof/Proofs/Frames.lean ====
section
/-! Frames (30_encoding.md R70, 41_fields.md R128): after the marker the receiver takes LENGTH, TYPE and the data bytes in
silence and ends in AwaitSync at the checksum byte, with a Segment or a ChecksumMismatch (42_checksum.md R152 to R156). -/

namespace Sys2Proof.Machine

section Payload

variable {data : List Byte}

theorem payloadOf_nil : payloadOf [] = Payload.zero := by
  apply Vector.ext
  intro i hi
  simp [payloadOf]

/-- The register file takes the data bytes in arrival order (41_fields.md R125). -/
theorem payloadOf_set (hn : data.length < 32) (x : Byte) :
    (payloadOf data).set data.length x hn = payloadOf (data ++ [x]) := by
  apply Vector.ext
  intro i hi
  rw [Vector.getElem_set]
  split_ifs with h
  · simp [payloadOf, ← h]
  · by_cases hlt : i < data.length
    · simp [payloadOf, List.getElem?_append_left hlt]
    · have hge : (data ++ [x]).length ≤ i := by
        simp only [List.length_append, List.length_singleton]
        omega
      simp [payloadOf, List.getElem?_eq_none hge, List.getElem?_eq_none (Nat.le_of_not_lt hlt)]

/-- The data bytes read back from the register file. -/
theorem take_payloadOf (hn : data.length ≤ 32) : (payloadOf data).toList.take data.length = data := by
  apply List.ext_getElem
  · simpa using hn
  · intro i hi hi'
    simp [payloadOf, hi']

/-- The computed checksum of a register file that holds the data. -/
theorem registerChecksum_payloadOf {len : Byte} (type : Byte) (hlen : len.toNat ≤ 32) (hdata : data.length = len.toNat) :
    registerChecksum len type (payloadOf data) = checksumFn len type data := by
  rw [registerChecksum_of_le hlen, ← hdata, take_payloadOf (by omega)]

end Payload

section Body

variable {s : State} {r : Regs} {len type : Byte} {data : List Byte} {d : Drive} {ds : List Drive}

/-- The registers of a frame in progress, LENGTH, TYPE and the bytes `data` taken since AwaitLength in `r`. -/
def Regs.inFrame (r : Regs) (len type : Byte) (data : List Byte) : Regs :=
  { r with
    segLen := len, segType := type, payload := payloadOf data, idx := BitVec.ofNat 6 data.length,
    st := if data.length = len.toNat then 4#3 else 3#3 }

theorem Regs.inFrame_st_ne (r : Regs) (len type : Byte) (data : List Byte) : (r.inFrame len type data).st ≠ 0#3 := by
  simp only [Regs.inFrame]
  split_ifs <;> decide

/-- A step on a byte whose effect is known. -/
theorem State.fed_of_afterByte {e : Event} {x : Byte} (hw : d.word = byteWord x) (hs : s.regs.st.toNat ≤ 4)
    (h : s.regs.afterByte d.budget x = (r, e)) : (s.fed d).regs = r ∧ (s.fed d).event = e := by
  rw [State.fed_regs, State.fed_event, Regs.afterStep_byteWord hw hs, h]
  exact ⟨rfl, rfl⟩

/-- TYPE after LENGTH begins the frame without data bytes. -/
theorem Regs.afterByte_type_inFrame {b : BitVec 16} (h : r.Inv) (hs : r.st = 1#3) (len type : Byte) :
    ({ r with segLen := len, st := 2#3 } : Regs).afterByte b type = (r.inFrame len type [], .none) := by
  obtain ⟨-, -, -, -, -, -, -, -, hidx⟩ := id h
  have hpayload : r.payload = payloadOf [] := by rw [h.payload_eq_zero (hidx (.inl hs)), payloadOf_nil]
  have hzero : len = 0x00#8 ↔ 0 = len.toNat := by
    rw [← BitVec.toNat_inj, eq_comm]
    rfl
  rw [Regs.afterByte_type rfl]
  simp only [Regs.inFrame, List.length_nil, hzero, hpayload]

theorem Regs.afterByte_data_at {b : BitVec 16} {x : Byte} {n : Nat} (hs : r.st = 3#3) (hidx : r.idx.toNat = n)
    (hn : n < 32) :
    r.afterByte b x =
      ({ r with
          payload := r.payload.set n x hn
          idx := r.idx + 1#6
          st := if n + 1 < r.segLen.toNat then 3#3 else 4#3 }, .none) := by
  subst hidx
  exact Regs.afterByte_data hs hn

/-- A data byte below LENGTH joins the data. -/
theorem Regs.afterByte_data_inFrame {b : BitVec 16} {x : Byte} (hlen : len.toNat ≤ 32)
    (hdata : data.length < len.toNat) :
    (r.inFrame len type data).afterByte b x = (r.inFrame len type (data ++ [x]), .none) := by
  have hst : (r.inFrame len type data).st = 3#3 := if_neg (by omega)
  have hidx : (r.inFrame len type data).idx.toNat = data.length := by
    simp only [Regs.inFrame, BitVec.toNat_ofNat]
    omega
  have htag : (if data.length + 1 < (r.inFrame len type data).segLen.toNat then 3#3 else 4#3) =
      if (data ++ [x]).length = len.toNat then 4#3 else 3#3 := by
    have hseg : (r.inFrame len type data).segLen = len := rfl
    rw [List.length_append, List.length_singleton, hseg]
    by_cases hlast : data.length + 1 = len.toNat
    · rw [if_pos hlast, if_neg (by omega)]
    · rw [if_neg hlast, if_pos (by omega)]
  have hcount : (r.inFrame len type data).idx + 1#6 = BitVec.ofNat 6 (data ++ [x]).length := by
    rw [List.length_append, BitVec.ofNat_add]
    rfl
  have hn : data.length < 32 := by omega
  rw [Regs.afterByte_data_at hst hidx hn, htag, hcount]
  exact congrArg (fun p => (({ (r.inFrame len type (data ++ [x])) with payload := p } : Regs), Event.none))
    (payloadOf_set hn x)

/-- LENGTH, TYPE and up to LENGTH data bytes are taken in silence. -/
theorem frame_body (h : s.regs.Inv) (hs : s.regs.st = 1#3) (hlen : len.toNat ≤ 32) (hdata : data.length ≤ len.toNat)
    (hds : ds.map Drive.word = (len :: type :: data).map byteWord) :
    (s.fedAll ds).regs = s.regs.inFrame len type data ∧ s.emitted ds = [] := by
  induction data using List.reverseRecOn generalizing ds with
  | nil =>
    obtain ⟨d₁, ds, rfl, hd₁, hds⟩ := List.map_eq_cons_iff.mp hds
    obtain ⟨d₂, ds, rfl, hd₂, hds⟩ := List.map_eq_cons_iff.mp hds
    obtain rfl : ds = [] := List.map_eq_nil_iff.mp hds
    obtain ⟨hregs₁, hevent₁⟩ := State.fed_of_afterByte hd₁ h.1 (Regs.afterByte_accept hs hlen)
    have htype := Regs.afterByte_type_inFrame (b := d₂.budget) h hs len type
    rw [← hregs₁] at htype
    obtain ⟨hregs₂, hevent₂⟩ := State.fed_of_afterByte hd₂ (State.inv_fed h d₁).1 htype
    exact ⟨hregs₂, by simp only [State.emitted, State.observed_of_none hevent₁, State.observed_of_none hevent₂,
      List.append_nil]⟩
  | append_singleton data x ih =>
    rw [← List.cons_append, ← List.cons_append, List.map_append] at hds
    obtain ⟨ds, d', rfl, hinit, hlast⟩ := List.map_eq_append_iff.mp hds
    obtain ⟨d, rfl, hd⟩ := List.map_eq_singleton_iff.mp hlast
    rw [List.length_append, List.length_singleton] at hdata
    obtain ⟨hregs, hevents⟩ := ih (by omega) hinit
    have hbyte := Regs.afterByte_data_inFrame (r := s.regs) (type := type) (b := d.budget) (x := x) hlen hdata
    rw [← hregs] at hbyte
    obtain ⟨hregs', hevent'⟩ := State.fed_of_afterByte hd (State.inv_fedAll h ds).1 hbyte
    rw [State.fedAll_append, State.emitted_append, hevents]
    exact ⟨hregs', by simp only [State.emitted, State.observed_of_none hevent', List.append_nil]⟩

/-- The event of the checksum byte `c` (42_checksum.md R152, R153). -/
def frameEvent (len type : Byte) (data : List Byte) (c : Byte) : Event :=
  if c = checksumFn len type data then
    .segment { length := len, type := type, payload := payloadOf data, checksum := c }
  else .checksumMismatch c (checksumFn len type data)

/-- The registers after the checksum byte `c` of a frame that began in `r`. -/
def Regs.frameEnd (r : Regs) (len type : Byte) (data : List Byte) (c : Byte) : Regs :=
  if c = checksumFn len type data then { r.parserReset with cntSeg := r.cntSeg + 1#16 }
  else { r.parserReset with cntChecksum := r.cntChecksum + 1#16 }

theorem frameEvent_ne_none (len type : Byte) (data : List Byte) (c : Byte) : frameEvent len type data c ≠ .none := by
  unfold frameEvent
  split_ifs <;> simp

theorem Regs.frameEnd_st (r : Regs) (len type : Byte) (data : List Byte) (c : Byte) :
    (r.frameEnd len type data c).st = 0#3 := by
  unfold Regs.frameEnd
  split_ifs <;> rfl

/-- The checksum byte of a complete frame is judged against the sum of its bytes. -/
theorem Regs.afterByte_checksum_inFrame {b : BitVec 16} {c : Byte} (hlen : len.toNat ≤ 32)
    (hdata : data.length = len.toNat) :
    (r.inFrame len type data).afterByte b c = (r.frameEnd len type data c, frameEvent len type data c) := by
  have hst : (r.inFrame len type data).st = 4#3 := if_pos hdata
  have hchk : (r.inFrame len type data).chk = checksumFn len type data :=
    registerChecksum_payloadOf type hlen hdata
  by_cases hc : c = checksumFn len type data
  · rw [Regs.afterByte_pass hst (hc.trans hchk.symm), Regs.frameEnd, frameEvent, if_pos hc, if_pos hc]
    rfl
  · rw [Regs.afterByte_fail hst (hchk ▸ hc), Regs.frameEnd, frameEvent, if_neg hc, if_neg hc, hchk]
    rfl

/-- From AwaitLength a frame with a legal LENGTH ends in AwaitSync at its checksum byte, with the one event there. -/
theorem frame_run {c : Byte} (h : s.regs.Inv) (hs : s.regs.st = 1#3) (hlen : len.toNat ≤ 32)
    (hdata : data.length = len.toNat) (hds : ds.map Drive.word = (len :: type :: data ++ [c]).map byteWord) :
    (s.fedAll ds).regs = s.regs.frameEnd len type data c ∧
      s.emitted ds = [(s.stepNo + (3 + len.toNat), frameEvent len type data c)] := by
  rw [List.map_append] at hds
  obtain ⟨ds, d', rfl, hinit, hlast⟩ := List.map_eq_append_iff.mp hds
  obtain ⟨d, rfl, hd⟩ := List.map_eq_singleton_iff.mp hlast
  obtain ⟨hregs, hevents⟩ := frame_body h hs hlen hdata.le hinit
  have hbyte := Regs.afterByte_checksum_inFrame (r := s.regs) (type := type) (b := d.budget) (c := c) hlen hdata
  rw [← hregs] at hbyte
  obtain ⟨hregs', hevent'⟩ := State.fed_of_afterByte hd (State.inv_fedAll h ds).1 hbyte
  have hcount : ds.length = 2 + len.toNat := by
    have := congrArg List.length hinit
    simp only [List.length_map, List.length_cons] at this
    omega
  have hne : ((s.fedAll ds).fed d).event ≠ .none := hevent' ▸ frameEvent_ne_none len type data c
  rw [State.fedAll_append, State.emitted_append, hevents]
  refine ⟨hregs', ?_⟩
  simp only [State.emitted, State.observed_of_ne_none hne, State.fed_stepNo, State.stepNo_fedAll, hcount, hevent',
    List.nil_append, List.append_nil]
  rw [show s.stepNo + (2 + len.toNat) + 1 = s.stepNo + (3 + len.toNat) by omega]

/-- Before its last byte a frame is in progress and silent. -/
theorem frame_silent {rest : List Byte} (h : s.regs.Inv) (hs : s.regs.st = 1#3) (hlen : len.toNat ≤ 32)
    (hrest : rest.length ≤ len.toNat + 1) (hds : ds.map Drive.word = (len :: rest).map byteWord) :
    (s.fedAll ds).regs.st ≠ 0#3 ∧ s.emitted ds = [] := by
  cases rest with
  | nil =>
    obtain ⟨d, rfl, hd⟩ := List.map_eq_singleton_iff.mp hds
    obtain ⟨hregs, hevent⟩ := State.fed_of_afterByte hd h.1 (Regs.afterByte_accept hs hlen)
    refine ⟨?_, by simp only [State.emitted, State.observed_of_none hevent, List.append_nil]⟩
    rw [State.fedAll_cons, State.fedAll_nil, hregs]
    simp
  | cons type data =>
    obtain ⟨hregs, hevents⟩ := frame_body h hs hlen (Nat.le_of_succ_le_succ hrest) hds
    exact ⟨hregs ▸ Regs.inFrame_st_ne _ _ _ _, hevents⟩

end Body

/-- Settles O47: any L + 2 bytes after LENGTH are a TYPE byte, L data bytes and a checksum byte. -/
theorem frameTakesThreePlusLengthBytes : Obligations.FrameTakesThreePlusLengthBytes := by
  intro s len rest ds h hs hlen hrest hds
  refine ⟨fun n hn => ?_, ?_⟩
  · have hle : n ≤ ds.length := by
      have := congrArg List.length hds
      simp only [List.length_map, List.length_cons] at this
      omega
    have hrun := observe_withInputs_append h (ds.take n) (ds.drop n)
    rw [List.take_append_drop, List.length_take_of_le hle] at hrun
    have hwords : (ds.take n).map Drive.word = ((len :: rest).take n).map byteWord := by
      rw [List.map_take, hds, List.map_take]
    cases n with
    | zero => exact ⟨_, hrun, by simp [hs]⟩
    | succ n =>
      rw [List.take_succ_cons] at hwords
      obtain ⟨hst, hevents⟩ := frame_silent h hs hlen (by rw [List.length_take]; omega) hwords
      rw [hevents] at hrun
      exact ⟨_, hrun, hst⟩
  · obtain ⟨type, rest, rfl⟩ := List.exists_cons_of_length_pos (l := rest) (by omega)
    have hne : rest ≠ [] := by
      rintro rfl
      simp at hrest
    have hsplit := List.dropLast_concat_getLast hne
    have hdata : rest.dropLast.length = len.toNat := by
      simp only [List.length_dropLast, List.length_cons] at hrest ⊢
      omega
    rw [← hsplit] at hds
    obtain ⟨hregs, hevents⟩ := frame_run h hs hlen hdata hds
    refine ⟨_, _, by rw [observeInputs_eq h, hevents], ?_, ?_⟩
    · rw [State.withInputs_regs, hregs, Regs.frameEnd_st]
    · unfold frameEvent
      split_ifs
      · exact .inl ⟨_, rfl⟩
      · exact .inr ⟨_, _, rfl⟩

end Sys2Proof.Machine
end

