-- ==== Sys2Proof/Proofs/FrameStreams.lean ====
section
/-! Frames in a stream: garbage without a marker, the marker, and a frame (90_conflicts.md C4), the round trip of an encoded
frame (30_encoding.md R80), and the frame with one bit flipped (42_checksum.md R154). -/

namespace Sys2Proof.Machine

section Marker

variable {s : State} {garbage bs : List Byte} {ds : List Drive}

/-- A byte other than the marker's last completes no marker. -/
theorem not_holdsMarker_append {x : Byte} (hm : ¬ holdsMarker bs) (hx : x ≠ 0x04#8) : ¬ holdsMarker (bs ++ [x]) := by
  rw [holdsMarker_append_singleton, windowAfter_eq_marker_iff, not_or]
  exact ⟨fun h => hx h.2, hm⟩

/-- The marker is found at its last byte, whatever came before (40_sync.md R105). -/
theorem marker_found (hf : s.regs.Fresh) (hm : ¬ holdsMarker garbage)
    (hds : ds.map Drive.word = (garbage ++ Config.marker).map byteWord) :
    (∃ count, (s.fedAll ds).regs = { s.regs with st := 1#3, cntTimeout := count }) ∧
      ∀ e ∈ s.emitted ds, ∃ c, e.2 = .syncTimeout c := by
  have hstart : ¬ holdsMarker (garbage ++ [0x01#8] ++ [0x02#8] ++ [0x03#8]) :=
    not_holdsMarker_append (not_holdsMarker_append (not_holdsMarker_append hm (by decide)) (by decide)) (by decide)
  have hfull : holdsMarker (garbage ++ [0x01#8] ++ [0x02#8] ++ [0x03#8] ++ [0x04#8]) := ⟨garbage, [], by simp⟩
  rw [show garbage ++ Config.marker = garbage ++ [0x01#8] ++ [0x02#8] ++ [0x03#8] ++ [0x04#8] by simp,
    List.map_append] at hds
  obtain ⟨ds, d', rfl, hinit, hlast⟩ := List.map_eq_append_iff.mp hds
  obtain ⟨d, rfl, hd⟩ := List.map_eq_singleton_iff.mp hlast
  obtain ⟨hscan, hevents⟩ := scanned_of_no_marker hf hinit hstart
  have hw := (holdsMarker_append_singleton.mp hfull).resolve_right hstart
  obtain ⟨hregs, hevent⟩ := State.fed_of_afterByte hd (by simp [hscan.st_eq, hf.st_eq])
    (hscan.afterByte_match (b := d.budget) hf hw)
  rw [State.fedAll_append, State.emitted_append]
  refine ⟨⟨_, hregs⟩, ?_⟩
  simpa [State.observed_of_none hevent] using hevents

/-- Garbage, the marker and a frame: timeouts while the garbage is scanned, then the frame's one event. -/
theorem frame_after_garbage {len type c : Byte} {data : List Byte} (hf : s.regs.Fresh) (hm : ¬ holdsMarker garbage)
    (hlen : len.toNat ≤ 32) (hdata : data.length = len.toNat)
    (hds : ds.map Drive.word = (garbage ++ Config.marker ++ (len :: type :: data ++ [c])).map byteWord) :
    (∃ count, (s.fedAll ds).regs = ({ s.regs with cntTimeout := count } : Regs).frameEnd len type data c) ∧
      ∃ es : List (Nat × Event), (∀ e ∈ es, ∃ n, e.2 = .syncTimeout n) ∧
        s.emitted ds = es ++ [(s.stepNo + ds.length, frameEvent len type data c)] := by
  rw [List.map_append] at hds
  obtain ⟨ds, ds', rfl, hscan, hframe⟩ := List.map_eq_append_iff.mp hds
  obtain ⟨⟨count, hregs⟩, hevents⟩ := marker_found hf hm hscan
  have hinv : (s.fedAll ds).regs.Inv := State.inv_fedAll hf.inv ds
  obtain ⟨hend, hevent⟩ := frame_run hinv (by rw [hregs]) hlen hdata hframe
  have hcount : ds'.length = 3 + len.toNat := by
    have := congrArg List.length hframe
    simp only [List.length_map, List.length_append, List.length_cons, List.length_nil] at this
    omega
  rw [State.fedAll_append, State.emitted_append, hevent, hend, hregs, State.stepNo_fedAll, List.length_append, hcount,
    Nat.add_assoc]
  exact ⟨⟨count, rfl⟩, _, hevents, rfl⟩

end Marker

section NoBudget

variable {s : State} {r : Regs} {w : InputWord} {p : Regs × Event}

/-- Without a budget there is no timeout, and the timeout counter stands but for a reset step (40_sync.md R100). -/
theorem Regs.Moves.no_timeout (hm : r.Moves 0#16 w p) (hrst : wordRst w = false) :
    (∀ c, p.2 ≠ .syncTimeout c) ∧ p.1.cntTimeout = r.cntTimeout := by
  cases hm with
  | reset h => simp [hrst] at h
  | timeout hk hs hw hb => simp at hb
  | _ => exact ⟨nofun, rfl⟩

/-- Over a run of bytes without a budget the same. -/
theorem no_timeouts_without_budget {bs : List Byte} (h : s.regs.Inv) :
    (∀ e ∈ s.emitted (byteInputs 0#16 bs), ∀ c, e.2 ≠ .syncTimeout c) ∧
      (s.fedAll (byteInputs 0#16 bs)).regs.cntTimeout = s.regs.cntTimeout := by
  induction bs generalizing s with
  | nil => exact ⟨nofun, rfl⟩
  | cons x bs ih =>
    obtain ⟨-, hlen, -, hdata, -⟩ := id h
    have hmove := Regs.moves_afterStep 0#16 s.regs (byteWord x) fun hs _ => by
      have := hdata hs
      omega
    obtain ⟨hevent, hcnt⟩ := hmove.no_timeout (wordRst_byteWord x)
    obtain ⟨hrest, hcnt'⟩ := ih (s := s.fed { word := byteWord x, budget := 0#16 }) (State.inv_fed h _)
    refine ⟨fun e he c => ?_, hcnt'.trans hcnt⟩
    obtain he | he := List.mem_append.mp he
    · unfold State.observed at he
      split_ifs at he
      · simp at he
      · rw [List.mem_singleton.mp he]
        exact hevent c
    · exact hrest e he c

/-- A frame alone, without a budget: one event, at its last byte, and the registers of its end. -/
theorem frame_without_budget {len type c : Byte} {data : List Byte} (hf : s.regs.Fresh)
    (hlen : len.toNat ≤ 32) (hdata : data.length = len.toNat) :
    ∃ t, observeInputs s (byteInputs 0#16 (Config.marker ++ (len :: type :: data ++ [c]))) =
        .next ([(s.stepNo + (7 + data.length), frameEvent len type data c)], t) ∧
      t.regs = s.regs.frameEnd len type data c := by
  obtain ⟨⟨count, hregs⟩, es, htimeouts, hevents⟩ :=
    frame_after_garbage (garbage := []) (type := type) (c := c) hf (by decide) hlen hdata
      (map_word_byteInputs 0#16 (Config.marker ++ (len :: type :: data ++ [c])))
  obtain ⟨hnone, hcnt⟩ := no_timeouts_without_budget (bs := Config.marker ++ (len :: type :: data ++ [c])) hf.inv
  have hes : es = [] := by
    rw [List.eq_nil_iff_forall_not_mem]
    intro e he
    obtain ⟨n, hn⟩ := htimeouts e he
    exact hnone e (by rw [hevents]; exact List.mem_append_left _ he) n hn
  have hcount : count = s.regs.cntTimeout := by
    rw [← hcnt, hregs]
    unfold Regs.frameEnd
    split_ifs <;> rfl
  have hlength : (byteInputs 0#16 (Config.marker ++ (len :: type :: data ++ [c]))).length = 7 + data.length := by
    simp only [byteInputs, List.length_map, List.length_append, List.length_cons, List.length_nil]
    omega
  rw [hes, hlength, List.nil_append] at hevents
  refine ⟨_, by rw [observeInputs_eq hf.inv, hevents], ?_⟩
  rw [State.withInputs_regs, hregs, hcount]

end NoBudget

section Encoded

variable {type : Byte} {data : List Byte}

/-- The LENGTH byte of at most 32 data bytes is their number. -/
theorem toNat_ofNat_length (h : data.length ≤ 32) : (BitVec.ofNat 8 data.length).toNat = data.length := by
  rw [BitVec.toNat_ofNat]
  omega

/-- An encoded frame is the marker, its body and the right checksum (30_encoding.md R80). -/
theorem encodeFrame_eq (type : Byte) (data : List Byte) :
    encodeFrame type data =
      Config.marker ++ (BitVec.ofNat 8 data.length :: type :: data ++
        [checksumFn (BitVec.ofNat 8 data.length) type data]) := by
  simp [encodeFrame]

/-- The right checksum makes the frame's event its Segment. -/
theorem frameEvent_encoded (type : Byte) (data : List Byte) :
    frameEvent (BitVec.ofNat 8 data.length) type data (checksumFn (BitVec.ofNat 8 data.length) type data) =
      .segment (segmentOf type data) := if_pos rfl

theorem Regs.frameEnd_encoded (r : Regs) (type : Byte) (data : List Byte) :
    r.frameEnd (BitVec.ofNat 8 data.length) type data (checksumFn (BitVec.ofNat 8 data.length) type data) =
      { r.parserReset with cntSeg := r.cntSeg + 1#16 } := if_pos rfl

end Encoded

section BitErrors

variable {len : Byte} {body : List Byte} {c : Byte} {f : Byte → Byte}

/-- The checksum is the sum of the frame's bytes from LENGTH on, in 8 bits (42_checksum.md R150). -/
theorem checksumFn_eq_sum (len type : Byte) (data : List Byte) : checksumFn len type data = len + (type :: data).sum := by
  induction data using List.reverseRecOn with
  | nil =>
    apply BitVec.eq_of_toNat_eq
    simp [checksumFn_toNat, BitVec.toNat_add]
  | append_singleton data x ih =>
    rw [checksumFn_append, ih]
    simp only [List.sum_cons, List.sum_append, List.sum_nil]
    ring

/-- A flipped bit changes its byte. -/
theorem xor_twoPow_ne (x : Byte) {j : Nat} (hj : j < 8) : x ^^^ BitVec.twoPow 8 j ≠ x := by
  intro h
  have hbit := congrArg (fun y : Byte => y.getLsbD j) h
  simp [hj] at hbit

/-- One byte changed, in the body or at its end, breaks a sum that was right: no other byte makes up for it
(42_checksum.md R154). -/
theorem sum_ne_of_modify (hf : ∀ x, f x ≠ x) (hc : c = len + body.sum) {k : Nat} (hk : k < (body ++ [c]).length) :
    ∃ body' c', (body ++ [c]).modify k f = body' ++ [c'] ∧ body'.length = body.length ∧ c' ≠ len + body'.sum := by
  obtain ⟨pre, x, post, hsplit, -, hmodify⟩ := List.exists_of_modify f hk
  rw [hmodify]
  obtain rfl | ⟨post, y, rfl⟩ := List.eq_nil_or_concat' post
  · obtain ⟨rfl, hx⟩ := List.append_inj' hsplit rfl
    obtain rfl : c = x := List.singleton_inj.mp hx
    exact ⟨body, f c, rfl, rfl, hc ▸ hf c⟩
  · rw [← List.cons_append, ← List.append_assoc] at hsplit
    obtain ⟨rfl, hy⟩ := List.append_inj' hsplit rfl
    obtain rfl : c = y := List.singleton_inj.mp hy
    refine ⟨pre ++ f x :: post, c, by simp, by simp, fun h => hf x ?_⟩
    simp only [List.sum_append, List.sum_cons] at h hc
    have hsum : len + (pre.sum + (f x + post.sum)) = len + (pre.sum + (x + post.sum)) := h.symm.trans hc
    exact add_right_cancel (add_left_cancel (add_left_cancel hsum))

end BitErrors

/-- Settles O48: an encoded frame carries its own checksum. -/
theorem encodedFrameRoundTrip : Obligations.EncodedFrameRoundTrip := by
  intro s type data hf hdata
  have hlen := toNat_ofNat_length hdata
  obtain ⟨t, hrun, ht⟩ := frame_without_budget (type := type)
    (c := checksumFn (BitVec.ofNat 8 data.length) type data) hf (by omega) hlen.symm
  rw [frameEvent_encoded, ← encodeFrame_eq] at hrun
  rw [Regs.frameEnd_encoded, ← hf] at ht
  exact ⟨t, hrun, ht⟩

/-- Settles O49: with the idle steps left out, the garbage is scanned, the marker found and the frame taken. -/
theorem resyncAfterGarbageDeliversTheFrame : Obligations.ResyncAfterGarbageDeliversTheFrame := by
  intro s garbage type data ds hf hm hdata hq hbytes
  have hlen := toNat_ofNat_length hdata
  have hwords := map_word_filter_isByte ds
  rw [hbytes, encodeFrame_eq, ← List.append_assoc] at hwords
  obtain ⟨⟨count, hend⟩, es, htimeouts, hevents⟩ := frame_after_garbage hf hm (by omega) hlen.symm hwords
  obtain ⟨hsnd, hregs⟩ := run_filter_isByte hf.inv (s' := s) rfl hq
  rw [hend, Regs.frameEnd_encoded] at hregs
  rw [hevents, frameEvent_encoded, List.map_append, List.map_singleton] at hsnd
  refine ⟨_, _, observeInputs_eq hf.inv ds, ?_, fun e he => ?_, ?_⟩
  · have hnone : (es.map Prod.snd).filter Event.isSegment = [] := by
      rw [List.filter_eq_nil_iff]
      intro e he
      obtain ⟨e', he', rfl⟩ := List.mem_map.mp he
      obtain ⟨n, hn⟩ := htimeouts e' he'
      simp [hn, Event.isSegment]
    rw [hsnd, List.filter_append, hnone]
    rfl
  · have hmem : e.2 ∈ es.map Prod.snd ++ [.segment (segmentOf type data)] := hsnd ▸ List.mem_map_of_mem he
    obtain hscan | hlast := List.mem_append.mp hmem
    · obtain ⟨e', he', heq⟩ := List.mem_map.mp hscan
      obtain ⟨n, hn⟩ := htimeouts e' he'
      exact .inr ⟨n, heq.symm.trans hn⟩
    · exact .inl (List.mem_singleton.mp hlast)
  · rw [State.withInputs_regs, hregs]
    exact ⟨rfl, rfl, rfl, rfl⟩

/-- Settles O50: the flipped bit leaves a frame of the same LENGTH whose checksum is wrong. -/
theorem singleBitErrorIsDetected : Obligations.SingleBitErrorIsDetected := by
  intro s type data p j hf hdata hp hp' hj
  have hlen := toNat_ofNat_length hdata
  obtain ⟨k, rfl⟩ := Nat.exists_eq_add_of_le' hp
  have hk : k < (type :: data ++ [checksumFn (BitVec.ofNat 8 data.length) type data]).length := by
    simp only [List.length_append, List.length_cons, List.length_nil]
    omega
  obtain ⟨body, c, hmodify, hbody, hc⟩ :=
    sum_ne_of_modify (f := (· ^^^ BitVec.twoPow 8 j)) (fun x => xor_twoPow_ne x hj) (checksumFn_eq_sum _ type data) hk
  obtain ⟨type', data', rfl⟩ := List.exists_cons_of_length_pos (l := body) (by simp [hbody])
  have hdata' : data'.length = data.length := Nat.succ.inj hbody
  rw [← checksumFn_eq_sum] at hc
  have hframe : (encodeFrame type data).modify (k + 5) (· ^^^ BitVec.twoPow 8 j) =
      Config.marker ++ (BitVec.ofNat 8 data.length :: type' :: data' ++ [c]) := by
    rw [encodeFrame_eq]
    simpa [List.modify_succ_cons] using hmodify
  obtain ⟨t, hrun, ht⟩ := frame_without_budget (type := type') (c := c) hf (by omega) (hdata'.trans hlen.symm)
  rw [frameEvent, if_neg hc, hdata', ← hframe] at hrun
  rw [Regs.frameEnd, if_neg hc, ← hf] at ht
  exact ⟨_, _, t, hrun, hc, ht⟩

end Sys2Proof.Machine
end

