-- ==== Sys2Proof/Proofs/CompactReceiver.lean ====
section
/-! The second design (40_sync.md R106, 42_checksum.md R155) does every step as the SFR does: the progress counter follows
the window and the running sum follows the frame. The progress also bounds how soon a Segment can come
(70_reset_and_hazards.md section 3). -/

namespace Sys2Proof.Machine

section Progress

/-- The progress by the window's newest three bytes as numbers. -/
theorem progressOf_eq (win : BitVec 32) :
    progressOf win =
      if win.toNat % 2 ^ 24 = 0x010203 then 3#2
      else if win.toNat % 2 ^ 16 = 0x0102 then 2#2
      else if win.toNat % 2 ^ 8 = 0x01 then 1#2
      else 0#2 := by
  unfold progressOf
  simp only [← BitVec.toNat_inj, BitVec.extractLsb'_toNat, Nat.shiftRight_zero]
  rfl

/-- The progress of the new window, by what the old window ended in. -/
theorem progressOf_windowAfter (win : BitVec 32) (d : Byte) :
    progressOf (windowAfter win d) =
      if win.toNat % 2 ^ 16 = 0x0102 ∧ d = 0x03#8 then 3#2
      else if win.toNat % 2 ^ 8 = 0x01 ∧ d = 0x02#8 then 2#2
      else if d = 0x01#8 then 1#2
      else 0#2 := by
  have hd := d.isLt
  have h3 : (win.toNat % 2 ^ 24 * 256 + d.toNat) % 2 ^ 24 = 0x010203 ↔
      win.toNat % 2 ^ 16 = 0x0102 ∧ d.toNat = 0x03 := by omega
  have h2 : (win.toNat % 2 ^ 24 * 256 + d.toNat) % 2 ^ 16 = 0x0102 ↔
      win.toNat % 2 ^ 8 = 0x01 ∧ d.toNat = 0x02 := by omega
  have h1 : (win.toNat % 2 ^ 24 * 256 + d.toNat) % 2 ^ 8 = 0x01 ↔ d.toNat = 0x01 := by omega
  simp only [progressOf_eq, windowAfter_toNat, h3, h2, h1, ← BitVec.toNat_inj]
  rfl

/-- The progress counter follows the window: `k1` is 4 exactly at a match and else the progress of the new window
(40_sync.md R106). -/
theorem progressAfter_progressOf (win : BitVec 32) (d : Byte) :
    progressAfter (progressOf win) d =
      if windowAfter win d = Config.markerWord then 4 else (progressOf (windowAfter win d)).toNat := by
  rw [progressOf_windowAfter, progressOf_eq]
  simp only [windowAfter_eq_marker_iff]
  by_cases h3 : win.toNat % 2 ^ 24 = 0x010203
  · have h2 : win.toNat % 2 ^ 16 ≠ 0x0102 := by omega
    have h1 : win.toNat % 2 ^ 8 ≠ 0x01 := by omega
    simp only [h3, h2, h1, if_true, true_and, false_and, if_false]
    change (if d = 0x04#8 then 4 else if d = 0x01#8 then 1 else 0) = _
    split_ifs <;> rfl
  · by_cases h2 : win.toNat % 2 ^ 16 = 0x0102
    · have h1 : win.toNat % 2 ^ 8 ≠ 0x01 := by omega
      simp only [h3, h2, h1, if_true, true_and, false_and, if_false]
      change (if d = 0x03#8 then 3 else if d = 0x01#8 then 1 else 0) = _
      split_ifs <;> rfl
    · by_cases h1 : win.toNat % 2 ^ 8 = 0x01
      · simp only [h3, h2, h1, if_true, true_and, false_and, if_false]
        change (if d = 0x02#8 then 2 else if d = 0x01#8 then 1 else 0) = _
        split_ifs <;> rfl
      · simp only [h3, h2, h1, false_and, if_false]
        change (if d = 0x01#8 then 1 else if d = 0x01#8 then 1 else 0) = _
        split_ifs <;> rfl

end Progress

section Simulation

variable {b : BitVec 16} {r : Regs} {w : InputWord} {p : Regs × Event} {m : Compact} {d : Byte}

theorem Compact.step_of_byte (hk : wordKind w = .byte) (hs : m.st.toNat ≤ 4) :
    Compact.step b m w = m.byteStep b (wordData w) := by
  simp [Compact.step, hk, show ¬ 5 ≤ m.st.toNat by omega]

theorem Compact.byteStep_sync (hs : m.st = 0#3) : m.byteStep b d = m.syncByte b d := by simp [Compact.byteStep, hs]

theorem Compact.byteStep_accept (hs : m.st = 1#3) (hd : d.toNat ≤ 32) :
    m.byteStep b d = ({ m with segLen := d, acc := d, st := 2#3 }, .none) := by
  simp [Compact.byteStep, hs, hd]

theorem Compact.byteStep_reject (hs : m.st = 1#3) (hd : 32 < d.toNat) :
    m.byteStep b d = ({ m.parserReset with cntFraming := bumpCounter m.cntFraming }, .framingError d) := by
  simp [Compact.byteStep, hs, Nat.not_le.mpr hd]

theorem Compact.byteStep_type (hs : m.st = 2#3) :
    m.byteStep b d =
      ({ m with segType := d, idx := 0#6, acc := m.acc + d, st := if m.segLen = 0x00#8 then 4#3 else 3#3 }, .none) := by
  simp [Compact.byteStep, hs]

theorem Compact.byteStep_data (hs : m.st = 3#3) : m.byteStep b d = (m.dataByte d, .none) := by
  simp [Compact.byteStep, hs]

theorem Compact.byteStep_checksum (hs : m.st = 4#3) : m.byteStep b d = m.checksumByte d := by
  simp [Compact.byteStep, hs]

/-- Before LENGTH is taken the running sum is 0. -/
theorem Regs.runningSum_of_le_one (h : r.st.toNat ≤ 1) : r.runningSum = 0x00#8 := if_pos h

theorem Regs.runningSum_of_type (h : r.st = 2#3) : r.runningSum = r.segLen := by simp [Regs.runningSum, h]

/-- From TYPE on the running sum is the checksum of the data taken so far (42_checksum.md R155). -/
theorem Regs.runningSum_of_data (h : r.st = 3#3 ∨ r.st = 4#3) :
    r.runningSum = checksumFn r.segLen r.segType (r.payload.toList.take r.idx.toNat) := by
  obtain h | h := h <;> simp [Regs.runningSum, h]

/-- In AwaitChecksum the running sum is the computed checksum. -/
theorem Regs.runningSum_eq_chk (h : r.Inv) (hs : r.st = 4#3) : r.runningSum = r.chk := by
  obtain ⟨-, hlen, -, -, hfull, -⟩ := h
  rw [Regs.runningSum_of_data (.inr hs), hfull hs, Regs.chk, registerChecksum_of_le hlen]

/-- The bytes up to and with the one just stored. -/
theorem take_succ_set (v : Payload) {n : Nat} (hn : n < 32) (d : Byte) :
    (v.set n d hn).toList.take (n + 1) = v.toList.take n ++ [d] := by
  rw [Vector.toList_set, ← List.take_append_getElem (by simpa using hn), List.take_set_of_le le_rfl,
    List.getElem_set_self]

/-- A byte in AwaitSync that completes no marker: the progress stays below 4 and is that of the new window. -/
theorem Compact.syncByte_of_ne (hw : windowAfter r.win d ≠ Config.markerWord) :
    (Compact.ofRegs r).syncByte b d =
      if budgetSpent b r.scanCnt then
        (Compact.ofRegs { r with
            win := windowAfter r.win d, scanCnt := 0#16, cntTimeout := bumpCounter r.cntTimeout },
          .syncTimeout (scanAfter r.scanCnt))
      else (Compact.ofRegs { r with win := windowAfter r.win d, scanCnt := scanAfter r.scanCnt }, .none) := by
  have hlt := (progressOf (windowAfter r.win d)).isLt
  have hk : progressAfter (Compact.ofRegs r).k d = (progressOf (windowAfter r.win d)).toNat :=
    (progressAfter_progressOf r.win d).trans (if_neg hw)
  rw [Compact.syncByte, hk, Compact.syncProgress, if_neg (by omega), BitVec.ofNat_toNat, BitVec.setWidth_eq]
  rfl

/-- A byte in AwaitSync that completes the marker: the progress is 4. -/
theorem Compact.syncByte_of_match (hs : r.st = 0#3) (hw : windowAfter r.win d = Config.markerWord) :
    (Compact.ofRegs r).syncByte b d = (Compact.ofRegs { r with st := 1#3, win := 0#32, scanCnt := 0#16 }, .none) := by
  have hk : progressAfter (Compact.ofRegs r).k d = 4 := (progressAfter_progressOf r.win d).trans (if_pos hw)
  have hacc : (Compact.ofRegs r).acc = 0x00#8 := Regs.runningSum_of_le_one (by simp [hs])
  rw [Compact.syncByte, hk, Compact.syncProgress, if_pos rfl]
  exact congrArg
    (fun sum => (({ Compact.ofRegs r with st := 1#3, k := 0#2, scanCnt := 0#16, acc := sum } : Compact), Event.none)) hacc

/-- A TYPE byte adds itself to the LENGTH. -/
theorem Compact.type_step (hs : r.st = 2#3) :
    (Compact.ofRegs r).byteStep b d =
      (Compact.ofRegs { r with segType := d, idx := 0#6, st := if r.segLen = 0x00#8 then 4#3 else 3#3 }, .none) := by
  have hsum : (Compact.ofRegs r).acc + d =
      Regs.runningSum { r with segType := d, idx := 0#6, st := if r.segLen = 0x00#8 then 4#3 else 3#3 } := by
    have hacc : (Compact.ofRegs r).acc = r.segLen := Regs.runningSum_of_type hs
    rw [Regs.runningSum_of_data (by by_cases h : r.segLen = 0x00#8 <;> simp [h]), hacc]
    simp [checksumFn_eq_sum]
  rw [Compact.byteStep_type hs, hsum]
  rfl

/-- A DATA byte adds itself to the sum of the bytes before it. -/
theorem Compact.data_step (hs : r.st = 3#3) (hl : r.idx.toNat + 1 ≤ r.segLen.toNat) (hi : r.idx.toNat < 32) :
    (Compact.ofRegs r).byteStep b d =
      (Compact.ofRegs { r with
          payload := r.payload.set r.idx.toNat d hi
          idx := r.idx + 1#6
          st := if r.idx.toNat + 1 < r.segLen.toNat then 3#3 else 4#3 }, .none) := by
  have hsum : (Compact.ofRegs r).acc + d =
      Regs.runningSum { r with
          payload := r.payload.set r.idx.toNat d hi
          idx := r.idx + 1#6
          st := if r.idx.toNat + 1 < r.segLen.toNat then 3#3 else 4#3 } := by
    have hacc : (Compact.ofRegs r).acc = _ := Regs.runningSum_of_data (.inl hs)
    rw [Regs.runningSum_of_data (by by_cases h : r.idx.toNat + 1 < r.segLen.toNat <;> simp [h]), hacc]
    simp only [idx_add_one_toNat hi]
    rw [take_succ_set, checksumFn_append]
  have hset : (Compact.ofRegs r).payload.setIfInBounds (Compact.ofRegs r).idx.toNat d =
      r.payload.set r.idx.toNat d hi := by
    apply Vector.ext
    intro i hlt
    rw [Vector.getElem_setIfInBounds, Vector.getElem_set]
    rfl
  have htag : (if r.idx.toNat + 1 < r.segLen.toNat then 3#3 else 4#3) =
      if (Compact.ofRegs r).idx.toNat + 1 = (Compact.ofRegs r).segLen.toNat then 4#3 else 3#3 := by
    change _ = if r.idx.toNat + 1 = r.segLen.toNat then 4#3 else 3#3
    by_cases h : r.idx.toNat + 1 < r.segLen.toNat
    · rw [if_pos h, if_neg (by omega)]
    · rw [if_neg h, if_pos (by omega)]
  rw [Compact.byteStep_data hs, Compact.dataByte, hsum, hset, ← htag, idx_add_one]
  rfl

/-- Every move of the registers is the step of the second design. -/
theorem Regs.Moves.simulated (hm : r.Moves b w p) (h : r.Inv) :
    Compact.step b (Compact.ofRegs r) w = (Compact.ofRegs p.1, p.2) := by
  have htag : (Compact.ofRegs r).st.toNat ≤ 4 := h.1
  have hbyte (hk : wordKind w = .byte) := Compact.step_of_byte (b := b) (m := Compact.ofRegs r) hk htag
  cases hm with
  | reset hrst =>
    rw [Compact.step, (wordKind_eq_reset_iff w).mpr hrst]
    rfl
  | abandon hrst hdrop =>
    have hclr : wordClr w = true := hdrop.resolve_right (by omega)
    rw [Compact.step, (wordKind_eq_clear_iff w).mpr ⟨hrst, hclr⟩]
    rfl
  | idle hk hs => simp [Compact.step, hk, show ¬ 5 ≤ (Compact.ofRegs r).st.toNat by omega]
  | hit hk hs hw => rw [hbyte hk, Compact.byteStep_sync hs, Compact.syncByte_of_match hs hw]
  | timeout hk hs hw hb =>
    rw [hbyte hk, Compact.byteStep_sync hs, Compact.syncByte_of_ne hw, if_pos hb, bumpCounter_eq_add]
  | shift hk hs hw hb =>
    rw [hbyte hk, Compact.byteStep_sync hs, Compact.syncByte_of_ne hw, if_neg (by simp [hb])]
  | accept hk hs hd =>
    rw [hbyte hk, Compact.byteStep_accept hs hd]
    rfl
  | reject hk hs hd =>
    rw [hbyte hk, Compact.byteStep_reject hs hd, bumpCounter_eq_add]
    rfl
  | typed hk hs =>
    rw [hbyte hk, Compact.type_step hs]
  | data hk hs hl hi =>
    rw [hbyte hk, Compact.data_step hs hl hi]
  | pass hk hs hd =>
    have hacc : (Compact.ofRegs r).acc = r.chk := Regs.runningSum_eq_chk h hs
    rw [hbyte hk, Compact.byteStep_checksum hs, Compact.checksumByte, if_pos (hd.trans hacc.symm), bumpCounter_eq_add]
    rfl
  | fail hk hs hd =>
    have hacc : (Compact.ofRegs r).acc = r.chk := Regs.runningSum_eq_chk h hs
    rw [hbyte hk, Compact.byteStep_checksum hs, Compact.checksumByte, if_neg (hacc ▸ hd), bumpCounter_eq_add, hacc]
    rfl

end Simulation

section Spacing

variable {b : BitVec 16} {s : State} {r : Regs} {w : InputWord} {p : Regs × Event} {ds : List Drive}

/-- No Segment can come before this many byte steps: what is missing of the marker, then LENGTH, TYPE and CHECKSUM, and in
AwaitData at least one data byte. -/
def Regs.bytesToSegment (r : Regs) : Nat :=
  if r.st = 0#3 then 7 - (progressOf r.win).toNat
  else if r.st = 1#3 then 3
  else if r.st = 2#3 ∨ r.st = 3#3 then 2
  else 1

theorem Regs.bytesToSegment_sync (hs : r.st = 0#3) : r.bytesToSegment = 7 - (progressOf r.win).toNat := if_pos hs

theorem Regs.bytesToSegment_bounds (r : Regs) : 1 ≤ r.bytesToSegment ∧ r.bytesToSegment ≤ 7 := by
  have := (progressOf r.win).isLt
  unfold Regs.bytesToSegment
  split_ifs <;> omega

theorem progressAfter_le (k : BitVec 2) (d : Byte) : progressAfter k d ≤ k.toNat + 1 := by
  unfold progressAfter
  split_ifs <;> omega

/-- A byte that completes no marker adds at most one to the progress. -/
theorem progressOf_windowAfter_le {win : BitVec 32} {d : Byte} (hw : windowAfter win d ≠ Config.markerWord) :
    (progressOf (windowAfter win d)).toNat ≤ (progressOf win).toNat + 1 := by
  have hle := progressAfter_le (progressOf win) d
  rwa [progressAfter_progressOf, if_neg hw] at hle

/-- A match comes after progress 3. -/
theorem progressOf_of_match {win : BitVec 32} {d : Byte} (hw : windowAfter win d = Config.markerWord) :
    3 ≤ (progressOf win).toNat := by
  have hle := progressAfter_le (progressOf win) d
  rw [progressAfter_progressOf, if_pos hw] at hle
  omega

theorem Regs.bytesToSegment_of_field (hs : r.st = 2#3 ∨ r.st = 3#3) : r.bytesToSegment = 2 := by
  obtain hs | hs := hs <;> simp [Regs.bytesToSegment, hs]

/-- In AwaitSync the window brings a Segment nearer by what it adds to the progress. -/
theorem Regs.bytesToSegment_le_of_progress {r' : Regs} (hs : r.st = 0#3) (hs' : r'.st = 0#3)
    (h : (progressOf r'.win).toNat ≤ (progressOf r.win).toNat + 1) : r.bytesToSegment ≤ r'.bytesToSegment + 1 := by
  rw [Regs.bytesToSegment_sync hs, Regs.bytesToSegment_sync hs']
  omega

/-- A byte step brings a Segment nearer by at most one byte. -/
theorem Regs.Moves.bytesToSegment_of_byte (hm : r.Moves b w p) : r.bytesToSegment ≤ p.1.bytesToSegment + 1 := by
  obtain ⟨-, hle⟩ := r.bytesToSegment_bounds
  cases hm with
  | idle hk hs => exact Nat.le_succ _
  | hit hk hs hw =>
    have hprogress := progressOf_of_match hw
    have hnext : Regs.bytesToSegment { r with st := 1#3, win := 0#32, scanCnt := 0#16 } = 3 := rfl
    rw [Regs.bytesToSegment_sync hs, hnext]
    omega
  | timeout hk hs hw hb => exact Regs.bytesToSegment_le_of_progress hs hs (progressOf_windowAfter_le hw)
  | shift hk hs hw hb => exact Regs.bytesToSegment_le_of_progress hs hs (progressOf_windowAfter_le hw)
  | accept hk hs hd => simp [Regs.bytesToSegment, hs]
  | typed hk hs =>
    rw [Regs.bytesToSegment_of_field (.inl hs)]
    exact Nat.succ_le_succ (Regs.bytesToSegment_bounds _).1
  | data hk hs hl hi =>
    rw [Regs.bytesToSegment_of_field (.inr hs)]
    exact Nat.succ_le_succ (Regs.bytesToSegment_bounds _).1
  | _ => exact Nat.le_succ_of_le hle

/-- Any other step brings a Segment no nearer. -/
theorem Regs.Moves.bytesToSegment_of_not_byte (hm : r.Moves b w p) (hk : wordKind w ≠ .byte) :
    r.bytesToSegment ≤ p.1.bytesToSegment := by
  obtain ⟨-, hle⟩ := r.bytesToSegment_bounds
  cases hm with
  | reset hrst => exact hle
  | abandon hrst hdrop => exact hle
  | idle hk hs => exact le_rfl
  | _ => contradiction

/-- A step with more than one byte to go, or without a byte, emits no Segment. -/
theorem Regs.Moves.not_segment (hm : r.Moves b w p) (h : wordKind w = .byte → 1 < r.bytesToSegment) :
    p.2.isSegment = false := by
  cases hm with
  | pass hk hs hd =>
    have hfar := h hk
    simp [Regs.bytesToSegment, hs] at hfar
  | _ => rfl

/-- The events of a state's observation are its event. -/
theorem State.not_segment_of_mem_observed {t : State} (h : t.event.isSegment = false) :
    ∀ e ∈ t.observed, e.2.isSegment = false := by
  unfold State.observed
  split_ifs
  · simp
  · simpa using h

/-- Inputs with fewer bytes than it takes emit no Segment, whatever else they ask for. -/
theorem no_segment_before (h : s.regs.Inv) (hds : (streamBytes ds).length < s.regs.bytesToSegment) :
    ∀ e ∈ s.emitted ds, e.2.isSegment = false := by
  induction ds generalizing s with
  | nil => exact nofun
  | cons d ds ih =>
    have hmove := Regs.moves_afterStep d.budget s.regs d.word
      (State.dataCovered_of_inv (s := s.withInputs [d]) h)
    have hstep : (s.fed d).event.isSegment = false ∧ (streamBytes ds).length < (s.fed d).regs.bytesToSegment := by
      by_cases hk : wordKind d.word = .byte
      · rw [streamBytes_cons_of_byte hk, List.length_cons] at hds
        exact ⟨hmove.not_segment fun _ => by omega,
          Nat.lt_of_succ_lt_succ (hds.trans_le hmove.bytesToSegment_of_byte)⟩
      · rw [streamBytes_cons_of_not_byte hk] at hds
        exact ⟨hmove.not_segment fun hbyte => absurd hbyte hk,
          hds.trans_le (hmove.bytesToSegment_of_not_byte hk)⟩
    obtain ⟨hevent, hrest⟩ := hstep
    intro e he
    obtain he | he := List.mem_append.mp he
    · exact State.not_segment_of_mem_observed hevent e he
    · exact ih (State.inv_fed h d) hrest e he

/-- A Segment leaves registers at an entry into AwaitSync, seven bytes away from the next. -/
theorem Regs.Moves.after_segment {g : Segment} (hm : r.Moves b w p) (hg : p.2 = .segment g) :
    p.1.Inv ∧ p.1.bytesToSegment = 7 := by
  cases hm with
  | pass hk hs hd => exact ⟨r.inv_parserReset, rfl⟩
  | _ => cases hg

end Spacing

/-- Settles O52: the SFR's step is a move of its registers, and every move is the second design's step. -/
theorem compactReceiverSimulatesEveryStep : Obligations.CompactReceiverSimulatesEveryStep := by
  intro s h
  have hc := State.dataCovered_of_inv h
  exact ⟨_, step_eq hc, (Regs.moves_afterStep _ _ _ hc).simulated h⟩

/-- Settles O51: seven bytes are missing after a Segment, and only byte steps bring the next one nearer. -/
theorem segmentsAreSevenByteStepsApart : Obligations.SegmentsAreSevenByteStepsApart := by
  intro s t g ds hstep hg hds
  obtain ⟨p, hm, rfl⟩ := step_moves hstep
  obtain ⟨hinv, hbytes⟩ := hm.after_segment hg
  exact ⟨_, _, observeInputs_eq hinv ds, no_segment_before hinv (hds.trans_eq hbytes.symm)⟩

end Sys2Proof.Machine
end
